-- ==== Sys2Proof/Word.lean ====
section
/-! DEFINITION. The words of the block (spec/00_scope.md R12, R13): bytes, the ten-bit instruction
word, nibbles. All data is unsigned; bit 0 is the least significant bit. -/

namespace Sys2Proof

/-- Eight bits: the port byte, `opcode`, `parameters` and the instruction byte (R12). -/
abbrev Byte := BitVec 8

/-- Four bits, half of a byte (R12, R18). -/
abbrev Nibble := BitVec 4

/-- The instruction word `IW[9:0] = {RS, RW, DB7..DB0}` (30_encoding.md R72). -/
abbrev InstrWord := BitVec 10

end Sys2Proof
end

