-- ==== Sys2Proof/Config.lean ====
section
/-! DEFINITION. What the spec leaves to the platform: constants without a body, so that no proof can
see their value (spec/00_scope.md R11, spec/10_state.md R38). The durations, which have defaults, are
parameters of an instantiation, in Machine/Durations.lean. -/

namespace Sys2Proof

/-- FREE VALUE. The pin levels of transport instance `t` before the first write to it (R38, U12): any
byte, in particular the enable bit may be high. DESIGN CHOICE, log entry 8. -/
opaque Config.powerOnPins (t : Nat) : Byte

/-- FREE VALUE. The clock frequency less one hertz; `Config.clockHz` is the parameter of the spec. -/
opaque Config.clockHzLessOne : Nat

/-- The open parameter `F_CLK_HZ` (R11, R186), a positive number. Log entry 11. -/
def Config.clockHz : Nat := Config.clockHzLessOne + 1

/-- FREE VALUE. The operand width less nine; `Config.operandWidth` is the parameter of the spec. -/
opaque Config.operandWidthLessNine : Nat

/-- The open parameter `OPERAND_W` (R11, R41), "at least 9". Log entry 12. -/
def Config.operandWidth : Nat := Config.operandWidthLessNine + 9

end Sys2Proof
end

