-- ==== Sys2Proof/Syntax.lean ====
section
/-! DEFINITION. The nine instructions as the host calls them (spec/30_encoding.md R90): a constructor
name and its operands. Flag operands are enumerated values, numeric operands are mathematical
integers, which may be out of range (spec/10_state.md R41). -/

namespace Sys2Proof

/-- The values of the register `bit_mode` (R22), of `cfg.bit_width` (R9) and of the operand
`bit_width` of `function_set` (R107). There is no third value (90_conflicts.md C3). -/
inductive BitWidth where
  | eightBit
  | fourBit
  deriving DecidableEq, Repr

/-- The values of `cfg.lines` (R9) and of the operand `line_count` (R107). -/
inductive LineCount where
  | oneLine
  | twoLines
  deriving DecidableEq, Repr

/-- The values of `cfg.font` (R9) and of the operand `font` (R107). -/
inductive Font where
  | font8x5
  | font10x5
  deriving DecidableEq, Repr

/-- The operand `increment_or_decrement` of `entry_mode_set` (R104). -/
inductive EntryDirection where
  | increment
  | decrement
  deriving DecidableEq, Repr

/-- The operand `shift_on_off` of `entry_mode_set` (R104). -/
inductive EntryShift where
  | shiftOn
  | shiftOff
  deriving DecidableEq, Repr

/-- The three operands of `display_on_off`, each on or off (R105). -/
inductive Switch where
  | on
  | off
  deriving DecidableEq, Repr

/-- The operand `target` of `cursor_or_display_shift` (R106). -/
inductive ShiftTarget where
  | cursor
  | display
  deriving DecidableEq, Repr

/-- The operand `direction` of `cursor_or_display_shift` (R106). -/
inductive ShiftDirection where
  | left
  | right
  deriving DecidableEq, Repr

/-- One call of a constructor of the factory, in the order of spec/opcode_table.json. -/
inductive Instr where
  /-- `write_data(byte)` (R123). -/
  | writeData (byte : Int)
  /-- `clear_display()` (R102). -/
  | clearDisplay
  /-- `return_home()` (R103). -/
  | returnHome
  /-- `entry_mode_set(increment_or_decrement, shift_on_off)` (R104). -/
  | entryModeSet (dir : EntryDirection) (shift : EntryShift)
  /-- `display_on_off(display, cursor, blinking)` (R105). -/
  | displayOnOff (display cursor blinking : Switch)
  /-- `cursor_or_display_shift(target, direction)` (R106). -/
  | cursorOrDisplayShift (target : ShiftTarget) (direction : ShiftDirection)
  /-- `function_set(bit_width, line_count, font)` (R107). -/
  | functionSet (bitWidth : BitWidth) (lineCount : LineCount) (font : Font)
  /-- `set_cgram_address(addr)` (R121). -/
  | setCgramAddress (addr : Int)
  /-- `set_ddram_address(addr)` (R122). -/
  | setDdramAddress (addr : Int)
  deriving DecidableEq, Repr

end Sys2Proof
end

