-- ==== Sys2Proof/WellFormed.lean ====
section
/-! DEFINITION. Which calls the factory accepts (spec/40_instructions_command.md R107,
spec/41_instructions_address_data.md R120 to R123). A call that is not well formed is still a call: it
runs, and ends with the error the spec names. -/

namespace Sys2Proof

/-- The one combination the hardware cannot render (R107, R202). -/
def invalidPair (lines : LineCount) (font : Font) : Bool :=
  lines == .twoLines && font == .font10x5

/-- The call is one the factory builds: numeric operands in range, no two lines of the tall font. -/
def Instr.wellFormed : Instr → Bool
  | .writeData byte => decide (0 ≤ byte ∧ byte ≤ 0xFF)
  | .clearDisplay => true
  | .returnHome => true
  | .entryModeSet _ _ => true
  | .displayOnOff _ _ _ => true
  | .cursorOrDisplayShift _ _ => true
  | .functionSet _ lineCount font => !invalidPair lineCount font
  | .setCgramAddress addr => decide (0 ≤ addr ∧ addr ≤ 0x3F)
  | .setDdramAddress addr => decide (0 ≤ addr ∧ addr ≤ 0x7F)

end Sys2Proof
end

