-- ==== Sys2Proof/Decode.lean ====
section
/-! DEFINITION. The encoding tables of spec/30_encoding.md: the opcodes (R79), the flag values (R80),
the decoder of the ten-bit instruction word (R72, opcode_table.json), and the encoder. The word is a
notation of the spec, never sent on the wire; as bytes it is laid out low byte first (log entry 2). -/

namespace Sys2Proof

/-! ### The opcodes (R79) -/

def opWriteData : Byte := 0x00
def opClearDisplay : Byte := 0x01
def opReturnHome : Byte := 0x02
def opEntryModeSet : Byte := 0x04
def opDisplayOnOff : Byte := 0x08
def opCursorOrDisplayShift : Byte := 0x10
def opFunctionSet : Byte := 0x20
def opSetCgramAddress : Byte := 0x40
def opSetDdramAddress : Byte := 0x80

/-! ### The flag values (R80): the value of the operand's named setting, 0 for the other one -/

def flagIncrement : EntryDirection → Byte
  | .increment => 0x02
  | .decrement => 0x00

def flagShift : EntryShift → Byte
  | .shiftOn => 0x01
  | .shiftOff => 0x00

def flagDisplay : Switch → Byte
  | .on => 0x04
  | .off => 0x00

def flagCursor : Switch → Byte
  | .on => 0x02
  | .off => 0x00

def flagBlinking : Switch → Byte
  | .on => 0x01
  | .off => 0x00

def flagTarget : ShiftTarget → Byte
  | .display => 0x08
  | .cursor => 0x00

def flagDirection : ShiftDirection → Byte
  | .right => 0x04
  | .left => 0x00

def flagBitWidth : BitWidth → Byte
  | .eightBit => 0x10
  | .fourBit => 0x00

def flagLineCount : LineCount → Byte
  | .twoLines => 0x08
  | .oneLine => 0x00

def flagFont : Font → Byte
  | .font10x5 => 0x04
  | .font8x5 => 0x00

/-! ### Reading the flags back from a bit of the word -/

def entryDirectionOfBit (b : Bool) : EntryDirection := if b then .increment else .decrement
def entryShiftOfBit (b : Bool) : EntryShift := if b then .shiftOn else .shiftOff
def switchOfBit (b : Bool) : Switch := if b then .on else .off
def shiftTargetOfBit (b : Bool) : ShiftTarget := if b then .display else .cursor
def shiftDirectionOfBit (b : Bool) : ShiftDirection := if b then .right else .left
def bitWidthOfBit (b : Bool) : BitWidth := if b then .eightBit else .fourBit
def lineCountOfBit (b : Bool) : LineCount := if b then .twoLines else .oneLine
def fontOfBit (b : Bool) : Font := if b then .font10x5 else .font8x5

/-- The `n` low bits of the word as an integer operand. -/
def operandOfWord (w : InstrWord) (n : Nat) : Int := ((w.extractLsb' 0 n).toNat : Int)

/-! ### The decoder -/

/-- Why a word is no instruction. -/
inductive DecodeReject where
  /-- fewer than the two bytes that hold a ten-bit word -/
  | truncated
  /-- one of bits 15 to 10, which the ten-bit word does not have, is set -/
  | paddingNotZero
  /-- bit 8 (RW) is set: a read, which the block has no path for (R87) -/
  | readWord
  /-- a write word that no constructor produces (R85) -/
  | unassigned
  deriving DecidableEq, Repr

/-- One row of opcode_table.json. -/
structure DecodeRow where
  mask : InstrWord
  pattern : InstrWord
  build : InstrWord → Instr

/-- The nine rows of opcode_table.json, masks and patterns as the table gives them. -/
def decodeTable : List DecodeRow :=
  [ { mask := 0x300, pattern := 0x200, build := fun w => .writeData (operandOfWord w 8) },
    { mask := 0x3FF, pattern := 0x001, build := fun _ => .clearDisplay },
    { mask := 0x3FF, pattern := 0x002, build := fun _ => .returnHome },
    { mask := 0x3FC, pattern := 0x004,
      build := fun w => .entryModeSet (entryDirectionOfBit (w.getLsbD 1)) (entryShiftOfBit (w.getLsbD 0)) },
    { mask := 0x3F8, pattern := 0x008,
      build := fun w => .displayOnOff (switchOfBit (w.getLsbD 2)) (switchOfBit (w.getLsbD 1))
        (switchOfBit (w.getLsbD 0)) },
    { mask := 0x3F3, pattern := 0x010,
      build := fun w => .cursorOrDisplayShift (shiftTargetOfBit (w.getLsbD 3))
        (shiftDirectionOfBit (w.getLsbD 2)) },
    { mask := 0x3E3, pattern := 0x020,
      build := fun w => .functionSet (bitWidthOfBit (w.getLsbD 4)) (lineCountOfBit (w.getLsbD 3))
        (fontOfBit (w.getLsbD 2)) },
    { mask := 0x3C0, pattern := 0x040, build := fun w => .setCgramAddress (operandOfWord w 6) },
    { mask := 0x380, pattern := 0x080, build := fun w => .setDdramAddress (operandOfWord w 7) } ]

/-- The word belongs to the row. -/
def DecodeRow.covers (r : DecodeRow) (w : InstrWord) : Bool := w &&& r.mask == r.pattern

/-- The call a ten-bit word stands for. The words 0x02C and 0x03C are the call
`function_set(_, TwoLines, Font10x5)`, whose meaning is the error of R86 (log entry 21). -/
def decodeWord (w : InstrWord) : Except DecodeReject Instr :=
  if w.getLsbD 8 then .error .readWord
  else
    match decodeTable.find? (fun r => r.covers w) with
    | some r => .ok (r.build w)
    | none => .error .unassigned

/-- The decoder on bytes: the low byte holds IB, bits 1 and 0 of the next hold RS and RW. -/
def decode : List Byte → Except DecodeReject (Instr × List Byte)
  | lo :: hi :: rest =>
    if hi &&& 0xFC == 0x00 then
      match decodeWord (hi.setWidth 2 ++ lo) with
      | .ok i => .ok (i, rest)
      | .error e => .error e
    else .error .paddingNotZero
  | _ => .error .truncated

/-! ### The encoder -/

/-- The opcode of a call (R79). -/
def Instr.opcode : Instr → Byte
  | .writeData _ => opWriteData
  | .clearDisplay => opClearDisplay
  | .returnHome => opReturnHome
  | .entryModeSet _ _ => opEntryModeSet
  | .displayOnOff _ _ _ => opDisplayOnOff
  | .cursorOrDisplayShift _ _ => opCursorOrDisplayShift
  | .functionSet _ _ _ => opFunctionSet
  | .setCgramAddress _ => opSetCgramAddress
  | .setDdramAddress _ => opSetDdramAddress

/-- The parameter bits of a well-formed call (R74). -/
def Instr.parameterBits : Instr → Byte
  | .writeData byte => BitVec.ofInt 8 byte
  | .clearDisplay => 0x00
  | .returnHome => 0x00
  | .entryModeSet dir shift => flagIncrement dir ||| flagShift shift
  | .displayOnOff display cursor blinking =>
    flagDisplay display ||| flagCursor cursor ||| flagBlinking blinking
  | .cursorOrDisplayShift target direction => flagTarget target ||| flagDirection direction
  | .functionSet bitWidth lineCount font =>
    flagBitWidth bitWidth ||| flagLineCount lineCount ||| flagFont font
  | .setCgramAddress addr => BitVec.ofInt 8 addr
  | .setDdramAddress addr => BitVec.ofInt 8 addr

/-- RS: 1 for `write_data` only (R29). -/
def Instr.rsBit : Instr → BitVec 1
  | .writeData _ => 1
  | .clearDisplay => 0
  | .returnHome => 0
  | .entryModeSet _ _ => 0
  | .displayOnOff _ _ _ => 0
  | .cursorOrDisplayShift _ _ => 0
  | .functionSet _ _ _ => 0
  | .setCgramAddress _ => 0
  | .setDdramAddress _ => 0

/-- The word of a well-formed call: RS, RW = 0, then the instruction byte (R72, R73). -/
def encode (i : Instr) : InstrWord :=
  i.rsBit ++ (0 : BitVec 1) ++ (i.opcode ||| i.parameterBits)

/-- The bytes of a ten-bit word, low byte first, the upper six bits zero. -/
def bytesOfWord (w : InstrWord) : List Byte :=
  [w.setWidth 8, (w.extractLsb' 8 2).setWidth 8]

/-- The bytes of a well-formed call. -/
def encodeBytes (i : Instr) : List Byte := bytesOfWord (encode i)

/-- The two bytes in which an instruction of `nbits` bits with bits `w` stands, bits from `nbits` up
being zero. -/
def tableWordBytes (nbits w : Nat) : List Byte :=
  [BitVec.ofNat 8 (w % 2 ^ nbits), BitVec.ofNat 8 (w % 2 ^ nbits / 256)]

/-- What the decoder reads from an instruction whose bits, numbered as opcode_table.json numbers them,
are `w`. -/
def decodeTableWord (nbits w : Nat) : Option Instr :=
  match decode (tableWordBytes nbits w) with
  | .ok (i, _) => some i
  | .error _ => none

end Sys2Proof
end

