-- ==== Sys2Proof/Machine/Durations.lean ====
section
/-! DEFINITION. The duration parameters (spec/00_scope.md R10, R40; spec/44_delay_sequencer.md R188):
natural numbers of nanoseconds, fixed when the block is instantiated, each with the spec's default. -/

namespace Sys2Proof.Machine

/-- The durations an instantiation of the block takes (R10, 92_eei_decisions.md D3). `T_SETTLE`, the
ninth name of R10's table, is the transport's and no parameter of the block (D14). -/
structure Durations where
  /-- `T_POWER_ON` -/
  powerOn : Nat
  /-- `T_INIT_1` -/
  init1 : Nat
  /-- `T_INIT_2` -/
  init2 : Nat
  /-- `T_SHORT` -/
  short : Nat
  /-- `T_LONG` -/
  long : Nat
  /-- `T_PWEH` -/
  pweh : Nat
  /-- `T_ENABLE_CYC` -/
  enableCyc : Nat
  deriving DecidableEq, Repr

/-- The defaults: the source's literals, unaudited (R10, 93_implementation_defined.md U14; log entry
14). -/
def defaultDurations : Durations :=
  { powerOn := 15000000, init1 := 4100000, init2 := 100000, short := 40000, long := 1600000,
    pweh := 230, enableCyc := 500 }

/-- `T_ENABLE_REST`, the remainder of the enable cycle, `T_ENABLE_CYC - T_PWEH` (R10, R139). Where the
pulse alone takes the cycle nothing remains (log entry 28). -/
def enableRest (T : Durations) : Nat := T.enableCyc - T.pweh

end Sys2Proof.Machine
end

