-- ==== Sys2Proof/Machine/State.lean ====
section
/-! DEFINITION. The state of the block (spec/10_state.md R21), what a claim observes of it
(spec/20_memory.md R66), the inputs of the world, and the state after reset (R45). -/

namespace Sys2Proof.Machine

/-! ### The registers of the block -/

/-- The lifecycle state (R23). -/
inductive Phase where
  | uninitialized
  | initializing
  | ready
  | faulted
  deriving DecidableEq, Repr

/-- The configuration register, loaded at construction and never written again (R9, R24). -/
structure Cfg where
  lines : LineCount
  font : Font
  backlight : Bool
  bitWidth : BitWidth
  deriving DecidableEq, Repr

/-- An instruction record: the value the factory builds, and the contents of `ir` (R26, R71).
Durations are natural numbers of nanoseconds (R10). -/
structure InstrRecord where
  opcode : Byte
  parameters : Byte
  registerSelect : Bool
  readWrite : Bool
  completionDelay : Nat
  deriving DecidableEq, Repr

/-- Which operation the sequencer runs (R32). -/
inductive SeqOp where
  | idle
  | exec
  | init
  deriving DecidableEq, Repr

/-- The sequencer position: the operation and the index of its next event (R32). -/
structure Seq where
  op : SeqOp
  k : Nat
  deriving DecidableEq, Repr

/-- The position `(Idle, 0)` (R32). -/
def Seq.idle : Seq := { op := .idle, k := 0 }

/-! ### Errors and responses -/

/-- The values of `err`, the codes 0 to 5 of R200 in their order. -/
inductive ErrorCode where
  | success
  | invalidConfiguration
  | outOfRange
  | unsupportedMode
  | transportFailure
  | sequenceError
  deriving DecidableEq, Repr

/-- What a transport reports with a failed write (R200, R205): the two kinds the source names, or
anything else it says, kept unchanged. -/
inductive TransportReport where
  | busUnavailable
  | writeFailure
  | other (detail : Nat)
  deriving DecidableEq, Repr

/-- The errors that end a command, each with what it records (R200). -/
inductive CmdError where
  | invalidConfiguration (lines : LineCount) (font : Font)
  | outOfRange (operand : Int)
  | transportFailure (position : Seq) (report : TransportReport)
  | sequenceError (phase : Phase)
  deriving DecidableEq, Repr

/-- A completion response `DONE(code)` with what it carries (R42, R200). -/
inductive Response where
  | done
  | failed (e : CmdError)
  deriving DecidableEq, Repr

/-! ### The observation -/

/-- An event of the trace: an acknowledged port write, or a wait of at least `d` nanoseconds (R16). -/
inductive Event where
  | write (b : Byte)
  | wait (d : Nat)
  deriving DecidableEq, Repr

/-! ### The inputs of the world -/

/-- A command of the host (R41). `word` is the model's own: the raw ten-bit word of an instruction,
as two bytes (log entry 2). -/
inductive Command where
  /-- `CONSTRUCT(cfg, transport)`, which is reset (R230). -/
  | construct (cfg : Cfg) (transport : Nat)
  /-- `INIT` (R160). -/
  | init
  /-- `EXEC(op, operands)` (R130). -/
  | exec (i : Instr)
  /-- An instruction presented as its word (R72, R87). -/
  | word (lo hi : Byte)
  deriving DecidableEq, Repr

/-- The transport's answer to a write (R51). After a failure the byte may have reached the pins or not
(R205): `taken` says which. -/
inductive Answer where
  | ack
  | fail (taken : Bool) (report : TransportReport)
  deriving DecidableEq, Repr

/-- The model's own (log entry 4): the step ends after `events` more events, `clocks` clocks into the
next one. -/
structure Pause where
  events : Nat
  clocks : Nat
  deriving DecidableEq, Repr

/-- The bytes outside the block: one per transport port, keyed by the transport's number (R38, R50).
Canonical form: keys strictly rising. A key not listed has no byte: nothing was written to that port
since power-on. -/
abbrev Memory := List Host.Cell

/-! ### The state -/

/-- The state tuple of R21, the hidden pins (R38), the observation (R66), the parameters the block was
instantiated with (R10), and the inputs still to come. -/
@[ext]
structure State where
  /-- `bit_mode` (R22) -/
  bitMode : BitWidth
  /-- `phase` (R23) -/
  phase : Phase
  /-- `cfg` (R24) -/
  cfg : Cfg
  /-- `transport`, the binding of the write port (R25) -/
  transport : Nat
  /-- `ir` (R26) -/
  ir : InstrRecord
  /-- `seq` (R32) -/
  seq : Seq
  /-- `timer`, in clocks (R34, R185) -/
  timer : Nat
  /-- `err` (R35) -/
  err : ErrorCode
  /-- `busy` (R35) -/
  busy : Bool
  /-- the byte last written to each transport's port (R38) -/
  pins : Memory
  /-- the events so far, oldest first (R16, R66) -/
  trace : List Event
  /-- the completion responses so far, oldest first (R42, R66) -/
  responses : List Response
  /-- the duration parameters of this instantiation: no register of the block (R40, R188), carried here
  as data that nothing writes; log entry 28 -/
  durations : Durations
  /-- the commands the host presents, the next one first (R43); the model's own field -/
  commands : List Command
  /-- the transport's answers to the coming writes, the next one first; a write beyond the list is
  acknowledged (R40, R51); the model's own field, log entry 3 -/
  answers : List Answer
  /-- where the coming runs of an operation pause; without one a run goes to its end; the model's own
  field, log entry 4 -/
  pauses : List Pause
  deriving DecidableEq, Repr

/-- What `ir` holds after reset. The spec leaves it unspecified (R26). DESIGN CHOICE, log entry 7. -/
def resetRecord : InstrRecord :=
  { opcode := 0x00, parameters := 0x00, registerSelect := false, readWrite := false,
    completionDelay := 0 }

/-- The configuration `State.reset` was constructed with. The host supplies it and there is no default
(R24). DESIGN CHOICE, log entry 5. -/
def resetCfg : Cfg :=
  { lines := .oneLine, font := .font8x5, backlight := false, bitWidth := .fourBit }

/-- The machine right after reset (R45, R230), instantiated with the default durations (R10),
constructed with `resetCfg` and transport 0 (DESIGN CHOICE, log entries 5 and 6), nothing written since
power-on, no command presented yet. -/
def State.reset : State :=
  { bitMode := .eightBit, phase := .uninitialized, cfg := resetCfg, transport := 0,
    ir := resetRecord, seq := Seq.idle, timer := 0, err := .success, busy := false,
    pins := [], trace := [], responses := [], durations := defaultDurations,
    commands := [], answers := [], pauses := [] }

/-- What stops the machine. -/
inductive Fault where
  /-- Raised by `step` in a state whose `busy` is true while its sequencer is idle: the spec gives such
  a state no meaning (R33, R35) and no run reaches it. Safe: the model stops. Log entry 20. -/
  | sequencerLost
  deriving DecidableEq, Repr

/-- What has no meaning for the machine. -/
inductive Refusal where
  /-- For an arm of `exec` without a meaning; no arm has it. Safe. -/
  | notModelled (mnemonic : String)
  /-- Raised by `step` on a raw word with RW set: "read path unsupported", such a record is refused,
  never transmitted (R87). Safe. -/
  | readPathUnsupported
  /-- Raised by `step` on a raw word no constructor produces; the host has no way to present one
  (R85, U15). Safe. -/
  | noSuchInstruction
  deriving DecidableEq, Repr

/-- The outcome of a step of this machine. -/
abbrev StepOutcome := Host.Outcome State Fault Refusal

end Sys2Proof.Machine
end

