-- ==== Sys2Proof/Machine/Delay.lean ====
section
/-! DEFINITION. The timing delay sequencer's counter (spec/44_delay_sequencer.md R180 to R188). Every
wait is a lower bound (R181). -/

namespace Sys2Proof.Machine

/-- A wait of `d` nanoseconds in clocks, rounded up and never less than one (R186). -/
def ticks (d : Nat) : Nat := max 1 ((d * Config.clockHz + (10 ^ 9 - 1)) / 10 ^ 9)

/-- One clock of the down-counter (R185). -/
def timerClock (timer : Nat) : Nat := timer - 1

/-- `n` clocks of the down-counter. -/
def timerClocks : Nat → Nat → Nat
  | 0, timer => timer
  | n + 1, timer => timerClocks n (timerClock timer)

/-- What `timer` holds once an event has begun: a wait loads the counter unless it is already running,
a write leaves it (R185). -/
def timerAtStart (e : Event) (timer : Nat) : Nat :=
  match e with
  | .write _ => timer
  | .wait d => if timer = 0 then ticks d else timer

end Sys2Proof.Machine
end

