-- ==== Sys2Proof/Machine/Flags.lean ====
section
/-! DEFINITION. The block has no condition codes (spec/10_state.md R35). Its two status outputs are
`busy` and `err`; here are the codes `err` takes (spec/60_exceptions.md R200). -/

namespace Sys2Proof.Machine

/-- The number of a code (R200). -/
def errorNumber : ErrorCode → Nat
  | .success => 0
  | .invalidConfiguration => 1
  | .outOfRange => 2
  | .unsupportedMode => 3
  | .transportFailure => 4
  | .sequenceError => 5

/-- The code of an error that ends a command (R200). -/
def errorCode : CmdError → ErrorCode
  | .invalidConfiguration _ _ => .invalidConfiguration
  | .outOfRange _ => .outOfRange
  | .transportFailure _ _ => .transportFailure
  | .sequenceError _ => .sequenceError

/-- The code of a completion response (R42, R200). -/
def responseCode : Response → ErrorCode
  | .done => .success
  | .failed e => errorCode e

/-- Giving a response: `err` takes its code, overwriting the last one (R35). -/
def respond (r : Response) (s : State) : State :=
  { s with err := responseCode r, responses := s.responses ++ [r] }

/-- `busy` rises and the sequencer takes its first position as a command is accepted (R33, R35). -/
def startOp (op : SeqOp) (s : State) : State :=
  { s with seq := { op := op, k := 0 }, busy := true }

/-- `busy` falls and the sequencer goes idle as an operation ends (R33, R35). -/
def endOp (s : State) : State :=
  { s with seq := Seq.idle, busy := false }

end Sys2Proof.Machine
end

