-- ==== Sys2Proof/Machine/Ops.lean ====
section
/-! DEFINITION. The named operations over the port, the pins and the error exits: a write to the
transport port (spec/20_memory.md R50 to R52), ending a command with an error
(spec/60_exceptions.md R201, R206, R210), and construction (spec/70_reset_and_hazards.md R230). -/

namespace Sys2Proof.Machine

/-! ### The pins -/

/-- The byte last written to port `t`; none if nothing was. -/
def Memory.read : Memory → Nat → Option Byte
  | [], _ => none
  | (a, b) :: rest, t => if t = a then some b else Memory.read rest t

/-- Port `t` takes the byte `b`; the list keeps its order. -/
def Memory.write : Memory → Nat → Byte → Memory
  | [], t, b => [(t, b)]
  | (a, c) :: rest, t, b =>
    if t = a then (a, b) :: rest
    else if t < a then (t, b) :: (a, c) :: rest
    else (a, c) :: Memory.write rest t b

/-- The canonical form: keys strictly rising. -/
abbrev Memory.wf (m : Memory) : Prop := m.Pairwise (fun x y => x.1 < y.1)

/-- `pins`: the levels of the eight outputs of the bound transport (R38). Before the first write they
are a free value (log entry 8). -/
def pinLevels (s : State) : Byte := (Memory.read s.pins s.transport).getD (Config.powerOnPins s.transport)

/-- The byte `b` reaches the pins of the bound transport (R38). -/
def drivePins (b : Byte) (s : State) : State :=
  { s with pins := Memory.write s.pins s.transport b }

/-! ### The transport's answer -/

/-- The answer to the write in progress; beyond the list it is an acknowledge (log entry 3). -/
def nextAnswer (s : State) : Answer := s.answers.head?.getD .ack

/-- That answer has been used. -/
def dropAnswer (s : State) : State := { s with answers := s.answers.tail }

/-! ### Events -/

/-- An event of the running operation is done: it joins the trace and `seq.k` advances (R33). -/
def eventDone (e : Event) (s : State) : State :=
  { s with trace := s.trace ++ [e], seq := { s.seq with k := s.seq.k + 1 } }

/-- The write of `b` is acknowledged: the byte is on the pins (R52). -/
def writeAcked (b : Byte) (s : State) : State :=
  eventDone (.write b) (drivePins b (dropAnswer s))

/-- The wait of `d` has elapsed: the counter is at zero (R185). -/
def waitElapsed (d : Nat) (s : State) : State :=
  eventDone (.wait d) { s with timer := 0 }

/-! ### Errors -/

/-- A command ends with an error before any event: nothing changes but `err` and the response (R201,
R207, R210). -/
def raise (e : CmdError) (s : State) : State := respond (.failed e) s

/-- The pins after a write of `b` that was answered fail: old or new (R205). -/
def afterFailedWrite (b : Byte) (taken : Bool) (s : State) : State :=
  if taken then drivePins b s else s

/-- The write of `b` at the present position is answered fail (R206): the operation ends, no further
event, the phase is Faulted until reset, the transport's report goes to the host. -/
def transportFailure (b : Byte) (taken : Bool) (report : TransportReport) (s : State) : State :=
  let failed := respond (.failed (.transportFailure s.seq report)) (afterFailedWrite b taken (dropAnswer s))
  { endOp failed with timer := 0, phase := .faulted }

/-! ### Construction -/

/-- `CONSTRUCT(cfg, transport)`: reset (R230, R232). An `EightBit` target is rejected: the block is
dead until it is constructed again (R204). No event; the pins, the trace and the inputs stay. -/
def construct (cfg : Cfg) (transport : Nat) (s : State) : State :=
  { s with
    bitMode := .eightBit
    phase := if cfg.bitWidth = .eightBit then .faulted else .uninitialized
    cfg := cfg
    transport := transport
    ir := resetRecord
    seq := Seq.idle
    timer := 0
    err := if cfg.bitWidth = .eightBit then .unsupportedMode else .success
    busy := false }

end Sys2Proof.Machine
end

