-- ==== Sys2Proof/Machine/Operands.lean ====
section
/-! DEFINITION. Operands and records: the range check (spec/41_instructions_address_data.md R120), the
record helper `mk` (spec/40_instructions_command.md R100), and the bytes a record gives
(spec/30_encoding.md R73 to R78). -/

namespace Sys2Proof.Machine

/-! ### Operands -/

/-- A numeric operand as the command port carries it: `w` bits, two's complement (R11, R41). -/
def operandOfPort {w : Nat} (bits : BitVec w) : Int := bits.toInt

/-- The range check (R120): an integer in `[0, max]` becomes an unsigned byte, any other is
`OutOfRange`, never reduced. -/
def checkRange (x max : Int) : Except CmdError Byte :=
  if x < 0 ∨ max < x then .error (.outOfRange x) else .ok (BitVec.ofInt 8 x)

/-! ### Records -/

/-- `mk(op, par, rs, d)` (R100): `read_write` is false in every record of the factory (R30). -/
def mkRecord (opcode parameters : Byte) (registerSelect : Bool) (delay : Nat) : InstrRecord :=
  { opcode := opcode, parameters := parameters, registerSelect := registerSelect, readWrite := false,
    completionDelay := delay }

/-- The instruction byte `IB` (R73). -/
def instrByte (r : InstrRecord) : Byte := r.opcode ||| r.parameters

/-- The instruction word `{RS, RW, IB}` (R72). -/
def recordWord (r : InstrRecord) : InstrWord :=
  BitVec.ofBool r.registerSelect ++ BitVec.ofBool r.readWrite ++ instrByte r

/-! ### The port byte (R75) -/

def rsBit : Byte := 0x01
def rwBit : Byte := 0x02
def enableBit : Byte := 0x04
def backlightBit : Byte := 0x08
def dataMask : Byte := 0xF0

/-- The RS and RW bits of a record's port bytes (R77). -/
def controlBits (r : InstrRecord) : Byte :=
  (if r.registerSelect then rsBit else 0x00) ||| (if r.readWrite then rwBit else 0x00)

/-- The high-nibble byte (R77). -/
def hiByte (r : InstrRecord) : Byte := controlBits r ||| (instrByte r &&& dataMask)

/-- The low-nibble byte (R78). -/
def loByte (r : InstrRecord) : Byte := controlBits r ||| ((instrByte r &&& 0x0F) <<< 4)

/-- The backlight bit of every byte written (R140). -/
def backlightBits (backlight : Bool) : Byte := if backlight then backlightBit else 0x00

end Sys2Proof.Machine
end

