-- ==== Sys2Proof/Machine/Sequencer.lean ====
section
/-! DEFINITION. The sequencer (spec/10_state.md R32, R33; spec/20_memory.md R62): how an operation's
event list is run, one event after the other, to its end, to a failed write, or to a pause (log
entry 4). -/

namespace Sys2Proof.Machine

/-- One event of an operation with the register writes that come with its beginning: the record latched
into `ir` when an instruction starts, and the flip of `bit_mode` (R26, R165; log entry 16). -/
structure Slot where
  load : Option InstrRecord
  flip : Bool
  event : Event
  deriving DecidableEq, Repr

/-- An event that comes with no register write. -/
def Slot.plain (e : Event) : Slot := { load := none, flip := false, event := e }

/-- The event begins: its register writes happen, and a wait loads the counter. -/
def beginSlot (slot : Slot) (s : State) : State :=
  { s with
    ir := slot.load.getD s.ir
    bitMode := if slot.flip then .fourBit else s.bitMode
    timer := timerAtStart slot.event s.timer }

/-- How an event ends. -/
inductive Progress where
  /-- the operation goes on -/
  | continues (s : State)
  /-- a write failed and the operation is over (R206) -/
  | aborted (s : State)
  deriving DecidableEq, Repr

/-- An event that has begun is carried to its end: a wait elapses, a write is answered (R51, R180). -/
def finishSlot (slot : Slot) (s : State) : Progress :=
  match slot.event with
  | .wait d => .continues (waitElapsed d s)
  | .write b =>
    match nextAnswer s with
    | .ack => .continues (writeAcked b s)
    | .fail taken report => .aborted (transportFailure b taken report s)

/-- The last event is done: the sequencer goes idle and the response is given; `init_lcd` leaves the
block `Ready` (R33, R42, R167). -/
def completeOp (s : State) : State :=
  respond .done (endOp { s with phase := if s.seq.op = .init then .ready else s.phase })

/-- The operation stands at its next event: that event begins, or, when there is none, the operation
completes. -/
def standAt (slots : List Slot) (s : State) : State :=
  match slots with
  | [] => completeOp s
  | slot :: _ => beginSlot slot s

/-- `clocks` clocks pass in an event that has begun. A write stays unanswered; a wait counts down, and
at zero it is done (R185). -/
def passClocks (clocks : Nat) (slot : Slot) (rest : List Slot) (s : State) : State :=
  match slot.event with
  | .write _ => s
  | .wait d =>
    if timerClocks clocks s.timer = 0 then standAt rest (waitElapsed d s)
    else { s with timer := timerClocks clocks s.timer }

/-- The remaining events of an operation, in order (R62), up to the pause if there is one. -/
def runSlots : List Slot → Option Pause → State → State
  | [], _, s => completeOp s
  | slot :: rest, none, s =>
    match finishSlot slot (beginSlot slot s) with
    | .continues s' => runSlots rest none s'
    | .aborted s' => s'
  | slot :: rest, some p, s =>
    match p.events with
    | 0 => passClocks p.clocks slot rest (beginSlot slot s)
    | n + 1 =>
      match finishSlot slot (beginSlot slot s) with
      | .continues s' => runSlots rest (some { p with events := n }) s'
      | .aborted s' => s'

/-- The operation with event list `slots` runs on from where it stands; the next pause, if any, is
used up. -/
def runOp (slots : List Slot) (s : State) : State :=
  runSlots (slots.drop s.seq.k) s.pauses.head? { s with pauses := s.pauses.tail }

end Sys2Proof.Machine
end

