-- ==== Sys2Proof/Machine/Transmit.lean ====
section
/-! DEFINITION. The transmitter (spec/42_execute_and_nibble_tx.md): the nibble protocol (R135), the two
paths of `execute` (R131 to R133), the `EXEC` command (R130), and the names of the transmitter's states
(R142). -/

namespace Sys2Proof.Machine

/-! ### The event lists -/

/-- `nibble_tx(b)`: three writes and two waits (R135). -/
def nibbleTx (T : Durations) (backlight : Bool) (b : Byte) : List Event :=
  [ .write (b ||| backlightBits backlight),
    .write (b ||| backlightBits backlight ||| enableBit),
    .wait T.pweh,
    .write (b ||| backlightBits backlight),
    .wait (enableRest T) ]

/-- The 8-bit path: the high nibble only, the low nibble is discarded (R132, R57). -/
def tx8 (T : Durations) (backlight : Bool) (r : InstrRecord) : List Event :=
  nibbleTx T backlight (hiByte r)

/-- The 4-bit path: high nibble, then low nibble, no wait between them (R133, R56). -/
def tx4 (T : Durations) (backlight : Bool) (r : InstrRecord) : List Event :=
  nibbleTx T backlight (hiByte r) ++ nibbleTx T backlight (loByte r)

/-- The event list of `execute(i)`: dispatch on `bit_mode`, then the completion delay (R131). -/
def executeEvents (T : Durations) (mode : BitWidth) (backlight : Bool) (r : InstrRecord) :
    List Event :=
  (match mode with
    | .eightBit => tx8 T backlight r
    | .fourBit => tx4 T backlight r) ++ [.wait r.completionDelay]

/-! ### The EXEC command -/

/-- The event list that `seq.k` indexes while the block executes the record in `ir` (R32, R133). -/
def execSlots (s : State) : List Slot :=
  (executeEvents s.durations s.bitMode s.cfg.backlight s.ir).map Slot.plain

/-- Part 3 of `EXEC`: the record is latched into `ir`, the command is accepted and runs (R130). -/
def executeRecord (r : InstrRecord) (s : State) : State :=
  let accepted := startOp .exec { s with ir := r }
  runOp (execSlots accepted) accepted

/-- `EXEC` with the constructor's result: the phase gate first, then the constructor's error, then the
transmission (R130, R209). -/
def execBuilt (built : Except CmdError InstrRecord) (s : State) : StepOutcome :=
  if s.phase = .faulted then .next (raise (.sequenceError s.phase) s)
  else
    match built with
    | .error e => .next (raise e s)
    | .ok r => .next (executeRecord r s)

/-! ### The transmitter's states (R142) -/

/-- The five states of a nibble transmission. -/
inductive NibbleState where
  | setup
  | raise
  | hold
  | drop
  | rest
  deriving DecidableEq, Repr

/-- The states of `execute`. -/
inductive TxState where
  | hi (n : NibbleState)
  | lo (n : NibbleState)
  | delay
  deriving DecidableEq, Repr

/-- The state a position within a nibble transmission is. -/
def nibbleStateAt : Nat → Option NibbleState
  | 0 => some .setup
  | 1 => some .raise
  | 2 => some .hold
  | 3 => some .drop
  | 4 => some .rest
  | _ => none

/-- The state that `seq.k` names while the block executes an instruction; none beyond the list. -/
def txStateAt (mode : BitWidth) (k : Nat) : Option TxState :=
  match mode with
  | .eightBit => if k < 5 then (nibbleStateAt k).map .hi else if k = 5 then some .delay else none
  | .fourBit =>
    if k < 5 then (nibbleStateAt k).map .hi
    else if k < 10 then (nibbleStateAt (k - 5)).map .lo
    else if k = 10 then some .delay else none

/-- What a nibble transmission of `b` does in each of its states (R142). -/
def nibbleEvent (T : Durations) (backlight : Bool) (b : Byte) : NibbleState → Event
  | .setup => .write (b ||| backlightBits backlight)
  | .raise => .write (b ||| backlightBits backlight ||| enableBit)
  | .hold => .wait T.pweh
  | .drop => .write (b ||| backlightBits backlight)
  | .rest => .wait (enableRest T)

/-- What the transmitter does in each of its states (R142). -/
def txEvent (T : Durations) (backlight : Bool) (r : InstrRecord) : TxState → Event
  | .hi n => nibbleEvent T backlight (hiByte r) n
  | .lo n => nibbleEvent T backlight (loByte r) n
  | .delay => .wait r.completionDelay

end Sys2Proof.Machine
end

