-- ==== Sys2Proof/Machine/AddressDataInstrs.lean ====
section
/-! DEFINITION. The three instructions with a numeric operand (spec/41_instructions_address_data.md
R120 to R123): the constructor of each, and the meaning of executing it. -/

namespace Sys2Proof.Machine

/-! ### The constructors -/

/-- `set_cgram_address(addr)`, 0 to 0x3F (R121). -/
def buildSetCgramAddress (T : Durations) (addr : Int) : Except CmdError InstrRecord :=
  match checkRange addr 0x3F with
  | .error e => .error e
  | .ok a => .ok (mkRecord opSetCgramAddress a false T.short)

/-- `set_ddram_address(addr)`, 0 to 0x7F (R122). -/
def buildSetDdramAddress (T : Durations) (addr : Int) : Except CmdError InstrRecord :=
  match checkRange addr 0x7F with
  | .error e => .error e
  | .ok a => .ok (mkRecord opSetDdramAddress a false T.short)

/-- `write_data(byte)`, 0 to 0xFF, the only constructor that selects the data register (R123). -/
def buildWriteData (T : Durations) (byte : Int) : Except CmdError InstrRecord :=
  match checkRange byte 0xFF with
  | .error e => .error e
  | .ok a => .ok (mkRecord opWriteData a true T.short)

/-! ### The meanings -/

/-- `EXEC(set_cgram_address, addr)` (R121, R130). -/
def execSetCgramAddress (addr : Int) (s : State) : StepOutcome :=
  execBuilt (buildSetCgramAddress s.durations addr) s

/-- `EXEC(set_ddram_address, addr)` (R122, R130). -/
def execSetDdramAddress (addr : Int) (s : State) : StepOutcome :=
  execBuilt (buildSetDdramAddress s.durations addr) s

/-- `EXEC(write_data, byte)` (R123, R130). -/
def execWriteData (byte : Int) (s : State) : StepOutcome := execBuilt (buildWriteData s.durations byte) s

end Sys2Proof.Machine
end

