-- ==== Sys2Proof/Machine/CommandInstrs.lean ====
section
/-! DEFINITION. The six command instructions (spec/40_instructions_command.md R100 to R107): the
constructor of each, a function of its operands that reads no register (R100) and takes the completion
delay from the durations of the instantiation, and the meaning of executing it. -/

namespace Sys2Proof.Machine

/-! ### The constructors -/

/-- `clear_display()` (R102). -/
def buildClearDisplay (T : Durations) : Except CmdError InstrRecord :=
  .ok (mkRecord opClearDisplay 0x00 false T.long)

/-- `return_home()` (R103). -/
def buildReturnHome (T : Durations) : Except CmdError InstrRecord :=
  .ok (mkRecord opReturnHome 0x00 false T.long)

/-- `entry_mode_set(increment_or_decrement, shift_on_off)` (R104). -/
def buildEntryModeSet (T : Durations) (dir : EntryDirection) (shift : EntryShift) :
    Except CmdError InstrRecord :=
  .ok (mkRecord opEntryModeSet (flagIncrement dir ||| flagShift shift) false T.short)

/-- `display_on_off(display, cursor, blinking)` (R105). -/
def buildDisplayOnOff (T : Durations) (display cursor blinking : Switch) : Except CmdError InstrRecord :=
  .ok (mkRecord opDisplayOnOff (flagDisplay display ||| flagCursor cursor ||| flagBlinking blinking)
    false T.short)

/-- `cursor_or_display_shift(target, direction)` (R106). -/
def buildCursorOrDisplayShift (T : Durations) (target : ShiftTarget) (direction : ShiftDirection) :
    Except CmdError InstrRecord :=
  .ok (mkRecord opCursorOrDisplayShift (flagTarget target ||| flagDirection direction) false T.short)

/-- `function_set(bit_width, line_count, font)`, validated first (R107). -/
def buildFunctionSet (T : Durations) (bitWidth : BitWidth) (lineCount : LineCount) (font : Font) :
    Except CmdError InstrRecord :=
  if invalidPair lineCount font then .error (.invalidConfiguration lineCount font)
  else
    .ok (mkRecord opFunctionSet (flagBitWidth bitWidth ||| flagLineCount lineCount ||| flagFont font)
      false T.short)

/-! ### The meanings -/

/-- `EXEC(clear_display)` (R102, R130). -/
def execClearDisplay (s : State) : StepOutcome := execBuilt (buildClearDisplay s.durations) s

/-- `EXEC(return_home)` (R103, R130). -/
def execReturnHome (s : State) : StepOutcome := execBuilt (buildReturnHome s.durations) s

/-- `EXEC(entry_mode_set, …)` (R104, R130). -/
def execEntryModeSet (dir : EntryDirection) (shift : EntryShift) (s : State) : StepOutcome :=
  execBuilt (buildEntryModeSet s.durations dir shift) s

/-- `EXEC(display_on_off, …)` (R105, R130). -/
def execDisplayOnOff (display cursor blinking : Switch) (s : State) : StepOutcome :=
  execBuilt (buildDisplayOnOff s.durations display cursor blinking) s

/-- `EXEC(cursor_or_display_shift, …)` (R106, R130). -/
def execCursorOrDisplayShift (target : ShiftTarget) (direction : ShiftDirection) (s : State) :
    StepOutcome :=
  execBuilt (buildCursorOrDisplayShift s.durations target direction) s

/-- `EXEC(function_set, …)` (R107, R130). It leaves `bit_mode` alone (R101, R246). -/
def execFunctionSet (bitWidth : BitWidth) (lineCount : LineCount) (font : Font) (s : State) :
    StepOutcome :=
  execBuilt (buildFunctionSet s.durations bitWidth lineCount font) s

end Sys2Proof.Machine
end

