-- ==== Sys2Proof/Machine/Factory.lean ====
section
/-! DEFINITION. The instruction factory as one function: the constructor a call names
(spec/40_instructions_command.md R100). -/

namespace Sys2Proof.Machine

/-- What the constructor named by the call returns: a record or an error. -/
def build (T : Durations) : Instr → Except CmdError InstrRecord
  | .writeData byte => buildWriteData T byte
  | .clearDisplay => buildClearDisplay T
  | .returnHome => buildReturnHome T
  | .entryModeSet dir shift => buildEntryModeSet T dir shift
  | .displayOnOff display cursor blinking => buildDisplayOnOff T display cursor blinking
  | .cursorOrDisplayShift target direction => buildCursorOrDisplayShift T target direction
  | .functionSet bitWidth lineCount font => buildFunctionSet T bitWidth lineCount font
  | .setCgramAddress addr => buildSetCgramAddress T addr
  | .setDdramAddress addr => buildSetDdramAddress T addr

end Sys2Proof.Machine
end

