-- ==== Sys2Proof/Machine/Dispatch.lean ====
section
/-! DEFINITION. One arm per instruction: the meaning it calls. -/

namespace Sys2Proof.Machine

def exec (i : Instr) (s : State) : Host.Outcome State Fault Refusal :=
  match i with
  | .writeData byte => Sys2Proof.Machine.execWriteData byte s
  | .clearDisplay => Sys2Proof.Machine.execClearDisplay s
  | .returnHome => Sys2Proof.Machine.execReturnHome s
  | .entryModeSet dir shift => Sys2Proof.Machine.execEntryModeSet dir shift s
  | .displayOnOff display cursor blinking => Sys2Proof.Machine.execDisplayOnOff display cursor blinking s
  | .cursorOrDisplayShift target direction => Sys2Proof.Machine.execCursorOrDisplayShift target direction s
  | .functionSet bitWidth lineCount font => Sys2Proof.Machine.execFunctionSet bitWidth lineCount font s
  | .setCgramAddress addr => Sys2Proof.Machine.execSetCgramAddress addr s
  | .setDdramAddress addr => Sys2Proof.Machine.execSetDdramAddress addr s

end Sys2Proof.Machine
end

