-- ==== Sys2Proof/Machine/Init.lean ====
section
/-! DEFINITION. The power-on handshake `init_lcd` (spec/43_init_sequence.md R160 to R172). -/

namespace Sys2Proof.Machine

/-- A step of `init_lcd` as the rules write it (R161 to R166). -/
inductive InitOp where
  /-- `Wait(d)` -/
  | wait (d : Nat)
  /-- `execute` of what a constructor returned; a constructor that fails contributes nothing, and
  acceptance rules that out (R171) -/
  | execute (built : Except CmdError InstrRecord)
  /-- `bit_mode <- FourBit` (R165) -/
  | flip

/-- The five steps (R161, R162, R164, R165, R166). -/
def initScript (T : Durations) (cfg : Cfg) : List InitOp :=
  [ .wait T.powerOn,
    .execute (buildFunctionSet T .eightBit .oneLine .font8x5),
    .wait T.init1,
    .execute (buildFunctionSet T .eightBit .oneLine .font8x5),
    .wait T.init2,
    .execute (buildFunctionSet T .eightBit .oneLine .font8x5),
    .execute (buildFunctionSet T .fourBit .oneLine .font8x5),
    .flip,
    .execute (buildFunctionSet T .fourBit cfg.lines cfg.font),
    .execute (buildDisplayOnOff T .off .off .off),
    .execute (buildClearDisplay T),
    .execute (buildEntryModeSet T .increment .shiftOff) ]

/-- The events of one `execute` of the script; the first of them latches the record (R26). -/
def initExecute (T : Durations) (mode : BitWidth) (backlight flip : Bool) (r : InstrRecord) :
    List Slot :=
  match executeEvents T mode backlight r with
  | [] => []
  | e :: es => { load := some r, flip := flip, event := e } :: es.map Slot.plain

/-- The script as events. Each `execute` takes the path of the mode at its start (R131), which begins as
EightBit; a flip takes effect as the next event begins (R165, log entry 16). -/
def expandScript (T : Durations) (backlight : Bool) : BitWidth → Bool → List InitOp → List Slot
  | _, _, [] => []
  | mode, flip, .wait d :: rest =>
    { load := none, flip := flip, event := .wait d } :: expandScript T backlight mode false rest
  | mode, _, .execute (.error _) :: rest => expandScript T backlight mode false rest
  | mode, flip, .execute (.ok r) :: rest =>
    initExecute T mode backlight flip r ++ expandScript T backlight mode false rest
  | _, _, .flip :: rest => expandScript T backlight .fourBit true rest

/-- The events of `init_lcd` under a configuration, 71 of them when it is valid (R168). -/
def initSlots (T : Durations) (cfg : Cfg) : List Slot :=
  expandScript T cfg.backlight .eightBit false (initScript T cfg)

/-- The event list of `init_lcd` (R168). -/
def initEvents (T : Durations) (cfg : Cfg) : List Event := (initSlots T cfg).map (·.event)

/-- `INIT` (R160): the phase gate, the check of the configured pair, then the five steps. -/
def execInit (s : State) : StepOutcome :=
  if s.phase ≠ .uninitialized then .next (raise (.sequenceError s.phase) s)
  else if invalidPair s.cfg.lines s.cfg.font then
    .next (raise (.invalidConfiguration s.cfg.lines s.cfg.font) s)
  else
    let accepted := startOp .init { s with phase := .initializing }
    .next (runOp (initSlots accepted.durations accepted.cfg) accepted)

end Sys2Proof.Machine
end

