-- ==== Sys2Proof/Machine/HostPort.lean ====
section
/-! DEFINITION. The host's command port (spec/10_state.md R41 to R43): accepting a command, going on
with a running operation, and a reset that arrives in the middle of one
(spec/70_reset_and_hazards.md R237). -/

namespace Sys2Proof.Machine

/-- The event list the sequencer is in; none when it is idle (R32). -/
def currentSlots (s : State) : Option (List Slot) :=
  match s.seq.op with
  | .idle => none
  | .exec => some (execSlots s)
  | .init => some (initSlots s.durations s.cfg)

/-- A running operation goes on from its position (R33). -/
def resume (s : State) : StepOutcome :=
  match currentSlots s with
  | none => .fault .sequencerLost
  | some slots => .next (runOp slots s)

/-- The write in progress, if the block is waiting for the answer to one (R51). -/
def pendingWrite (s : State) : Option Byte :=
  if s.busy then
    match (currentSlots s).bind (fun slots => slots[s.seq.k]?) with
    | some { event := .write b, .. } => some b
    | _ => none
  else none

/-- A reset abandons the operation (R237). Of a write in progress the byte reaches the pins or not, as
the transport's answer to it says; the block does not see that answer and no event is recorded (log
entry 10). -/
def abandon (s : State) : State :=
  match pendingWrite s with
  | none => s
  | some b =>
    match nextAnswer s with
    | .ack => drivePins b (dropAnswer s)
    | .fail taken _ => afterFailedWrite b taken (dropAnswer s)

/-- A raw instruction word: it is decoded and executed, or refused by name (R85, R87). -/
def execWord (lo hi : Byte) (s : State) : StepOutcome :=
  match decode [lo, hi] with
  | .ok (i, _) => exec i s
  | .error .readWord => .refused .readPathUnsupported
  | .error .truncated => .refused .noSuchInstruction
  | .error .paddingNotZero => .refused .noSuchInstruction
  | .error .unassigned => .refused .noSuchInstruction

/-- An accepted command, taken off the port (R41). -/
def serve (c : Command) (s : State) : StepOutcome :=
  match c with
  | .construct cfg transport => .next (construct cfg transport (abandon s))
  | .init => execInit s
  | .exec i => exec i s
  | .word lo hi => execWord lo hi s

/-- The port takes the next command: when the block is idle, or at any time when it is a construction
(R43, R237). -/
def accepts (c : Command) (s : State) : Bool :=
  match c with
  | .construct _ _ => true
  | .init => !s.busy
  | .exec _ => !s.busy
  | .word _ _ => !s.busy

/-- One step of the machine. The next command is served if the port takes it; if not, it waits and the
running operation goes on (R43). An idle block without a command does nothing (R231). -/
def stepPort (s : State) : StepOutcome :=
  match s.commands with
  | [] => if s.busy then resume s else .next s
  | c :: rest => if accepts c s then serve c { s with commands := rest } else resume s

/-- The host presents an instruction word to an idle block, ahead of the other commands. -/
def presentWord (bytes : List Byte) (s : State) : State :=
  { s with
    seq := Seq.idle
    timer := 0
    busy := false
    commands := .word (bytes[0]?.getD 0x00) (bytes[1]?.getD 0x00) :: s.commands }

end Sys2Proof.Machine
end

