-- ==== Sys2Proof/Machine/Step.lean ====
section
/-! DEFINITION. One step of the machine, and how an instruction word is placed before it. -/

namespace Sys2Proof.Machine

/-- One step: a command served, an operation resumed, or an idle block doing nothing
(spec/10_state.md R43, spec/70_reset_and_hazards.md R231). -/
def step (s : State) : Host.Outcome State Fault Refusal := Sys2Proof.Machine.stepPort s

/-- The instruction whose bits are `w` is the next command an idle block takes from the port; stands for
the host presenting it (log entry 1). -/
def State.withFetchWord (s : State) (nbits w : Nat) : State :=
  Sys2Proof.Machine.presentWord (Sys2Proof.tableWordBytes nbits w) s

end Sys2Proof.Machine
end

