-- ==== Sys2Proof/Safety.lean ====
section
/-! DEFINITION. What claims say of a run: the observations of a trace (spec/00_scope.md R16,
spec/20_memory.md R67), the timing obligations over it (spec/70_reset_and_hazards.md R241), and the
invariant of the machine (spec/10_state.md R22 to R35). -/

namespace Sys2Proof.Machine

/-! ### Observations of a trace -/

/-- The write projection `writes(t)` (R16). -/
def writes (t : List Event) : List Byte :=
  t.filterMap (fun e => match e with
    | .write b => some b
    | .wait _ => none)

/-- The number of writes among the events. -/
def writeCount (t : List Event) : Nat := (writes t).length

/-- The sum of the waits: the least time the events take (R144, R170). -/
def waitTotal : List Event → Nat
  | [] => 0
  | .write _ :: rest => waitTotal rest
  | .wait d :: rest => d + waitTotal rest

/-- What the display is given by a write with enable high: RS, RW and the data nibble (R67). -/
def sampledByte (b : Byte) : Bool × Bool × Nibble := (b.getLsbD 0, b.getLsbD 1, b.extractLsb' 4 4)

/-- `sampled(t)` (R67). -/
def sampled (t : List Event) : List (Bool × Bool × Nibble) :=
  ((writes t).filter (fun b => b.getLsbD 2)).map sampledByte

/-- Adjacent waits joined into one of their sum, which means the same (R16, R187). -/
def mergeWaits : List Event → List Event
  | [] => []
  | .write b :: rest => .write b :: mergeWaits rest
  | .wait d :: rest =>
    match mergeWaits rest with
    | .wait d' :: rest' => .wait (d + d') :: rest'
    | rest' => .wait d :: rest'

/-- Each write with the least time at which it is issued, the waits before it summed from `t0` (R62). -/
def timeline : Nat → List Event → List (Nat × Byte)
  | _, [] => []
  | t0, .write b :: rest => (t0, b) :: timeline t0 rest
  | t0, .wait d :: rest => timeline (t0 + d) rest

/-- Each write is followed by the next one no sooner than `least` when it has enable high. -/
def highFor (least : Nat) : List (Nat × Byte) → Bool
  | (t, b) :: (t', b') :: rest =>
    (!b.getLsbD 2 || decide (t + least ≤ t')) && highFor least ((t', b') :: rest)
  | _ => true

/-- The writes with enable high come at least `least` apart. -/
def apart (least : Nat) : List (Nat × Byte) → Bool
  | (t, _) :: (t', b') :: rest => decide (t + least ≤ t') && apart least ((t', b') :: rest)
  | _ => true

/-- Enable stays high for at least `T_PWEH` (R241 a). -/
def pulsesHeld (T : Durations) (t : List Event) : Bool := highFor T.pweh (timeline 0 t)

/-- Two successive rising edges of enable are at least `T_ENABLE_CYC` apart (R241 b). -/
def risesApart (T : Durations) (t : List Event) : Bool :=
  apart T.enableCyc ((timeline 0 t).filter (fun x => x.2.getLsbD 2))

/-- The writes come in threes: a byte with enable low, the same with enable high, the first again
(R138, R141). -/
def inPulses : List Byte → Bool
  | [] => true
  | a :: b :: c :: rest => !a.getLsbD 2 && b == (a ||| enableBit) && c == a && inPulses rest
  | _ => false

/-! ### The answers and pauses a run meets -/

/-- The transport acknowledges the next `n` writes. -/
def acked (n : Nat) (s : State) : Prop := ∀ a ∈ s.answers.take n, a = .ack

/-- The block runs its next operation to the end, without a pause. -/
def unpaused (s : State) : Prop := s.pauses = []

/-! ### What a completed command leaves -/

/-- The five events in which the port byte `w`, enable low, is clocked into the display, written out
from R135 and R139. -/
def pulse (T : Durations) (w : Byte) : List Event :=
  [.write w, .write (w ||| 0x04), .wait T.pweh, .write w, .wait (T.enableCyc - T.pweh)]

/-- The backlight bit that every byte of a run carries, written out from R133. -/
def lit (s : State) : Byte := if s.cfg.backlight then 0x08 else 0x00

/-- A write record with the four fields that vary (R71). -/
def writeRecord (opcode parameters : Byte) (registerSelect : Bool) (delay : Nat) : InstrRecord :=
  { opcode := opcode, parameters := parameters, registerSelect := registerSelect, readWrite := false,
    completionDelay := delay }

/-- The state a completed operation leaves when its events are `events`, the last byte written is `last`
and `ir` holds `r`: the trace, the pins, the response, an idle block (R33, R42, R143). -/
def completed (r : InstrRecord) (events : List Event) (last : Byte) (s : State) : State :=
  { s with
    ir := r
    seq := Seq.idle
    timer := 0
    err := .success
    busy := false
    pins := Memory.write s.pins s.transport last
    trace := s.trace ++ events
    responses := s.responses ++ [.done]
    answers := s.answers.drop (writeCount events) }

/-- What `EXEC` leaves of an instruction whose nibble bytes are `hi` and `lo`: both nibbles in FourBit,
the high one only in EightBit, then the completion delay (R131 to R133). -/
def completedExec (r : InstrRecord) (hi lo : Byte) (s : State) : State :=
  match s.bitMode with
  | .eightBit =>
    completed r (pulse s.durations (hi ||| lit s) ++ [.wait r.completionDelay]) (hi ||| lit s) s
  | .fourBit =>
    completed r
      (pulse s.durations (hi ||| lit s) ++ pulse s.durations (lo ||| lit s) ++ [.wait r.completionDelay])
      (lo ||| lit s) s

/-- The number of writes an instruction makes in the present mode (R134). -/
def writesPerInstr (s : State) : Nat :=
  match s.bitMode with
  | .eightBit => 3
  | .fourBit => 6

/-- `EXEC` can run to its end: the block is not Faulted, nothing pauses the run, and the transport
acknowledges the writes of the instruction (R130, R206). -/
def runsToEnd (s : State) : Prop := s.phase ≠ .faulted ∧ unpaused s ∧ acked (writesPerInstr s) s

/-- The low-nibble byte of the user's function-set (R168, R107). -/
def userLowNibble (cfg : Cfg) : Byte :=
  match cfg.lines, cfg.font with
  | .twoLines, _ => 0x80
  | .oneLine, .font10x5 => 0x40
  | .oneLine, .font8x5 => 0x00

/-- One nibble on the 8-bit path of the handshake, then the short delay (R162). -/
def shakeOnce (T : Durations) (w : Byte) : List Event := pulse T w ++ [.wait T.short]

/-- The 71 events of `init_lcd`, written out from the table of R168: `bl` is the backlight bit, `lo` the
low-nibble byte of the user's function-set. -/
def handshake (T : Durations) (bl lo : Byte) : List Event :=
  [.wait T.powerOn] ++
  shakeOnce T (0x30 ||| bl) ++ [.wait T.init1] ++
  shakeOnce T (0x30 ||| bl) ++ [.wait T.init2] ++
  shakeOnce T (0x30 ||| bl) ++
  shakeOnce T (0x20 ||| bl) ++
  (pulse T (0x20 ||| bl) ++ pulse T (lo ||| bl) ++ [.wait T.short]) ++
  (pulse T (0x00 ||| bl) ++ pulse T (0x80 ||| bl) ++ [.wait T.short]) ++
  (pulse T (0x00 ||| bl) ++ pulse T (0x10 ||| bl) ++ [.wait T.long]) ++
  (pulse T (0x00 ||| bl) ++ pulse T (0x60 ||| bl) ++ [.wait T.short])

/-- `INIT` can run to its end: the block is not yet initialised, its configuration is valid, nothing
pauses the run, and the transport acknowledges the 36 writes (R160, R168). -/
def initRunsToEnd (s : State) : Prop :=
  s.phase = .uninitialized ∧ invalidPair s.cfg.lines s.cfg.font = false ∧ unpaused s ∧ acked 36 s

/-- The words the factory can produce, in the order in which R85 lists them. -/
def factoryWord (w : InstrWord) : Bool :=
  w == 0x001 || w == 0x002 || (0x004 ≤ w && w ≤ 0x007) || (0x008 ≤ w && w ≤ 0x00F) ||
  w == 0x010 || w == 0x014 || w == 0x018 || w == 0x01C ||
  w == 0x020 || w == 0x024 || w == 0x028 || w == 0x030 || w == 0x034 || w == 0x038 ||
  (0x040 ≤ w && w ≤ 0x07F) || (0x080 ≤ w && w ≤ 0x0FF) || (0x200 ≤ w && w ≤ 0x2FF)

/-! ### Leaving the specified behaviour -/

/-- The run has drawn a `SequenceError`: no claim about the display holds after it (R207). -/
def leftSpecification (s : State) : Bool :=
  s.responses.any (fun r => responseCode r == .sequenceError)

/-- The next command of the host is no construction. -/
def noConstruct (s : State) : Prop :=
  ∀ cfg transport rest, s.commands ≠ .construct cfg transport :: rest

/-! ### The invariant -/

/-- The lifecycle and the transmission mode agree, and the configuration is one a constructed driver
can have (R22, R23, R24); that a block past the acceptance of `INIT` has a valid pair is R160 (log entry
15). -/
def ModeInv (s : State) : Prop :=
  (s.phase = .uninitialized → s.bitMode = .eightBit) ∧
  (s.phase = .ready → s.bitMode = .fourBit) ∧
  (s.phase ≠ .faulted → s.cfg.bitWidth = .fourBit) ∧
  (s.phase = .initializing ∨ s.phase = .ready → invalidPair s.cfg.lines s.cfg.font = false)

/-- An idle block stands at `(Idle, 0)` with its counter at zero (R32, R34, R35). -/
def IdleInv (s : State) : Prop :=
  s.busy = false → s.seq = Seq.idle ∧ s.timer = 0 ∧ s.phase ≠ .initializing

/-- What the counter holds in an event: zero in a write, what is left of the wait in a wait (R34,
R185). -/
def timerFits (e : Event) (timer : Nat) : Prop :=
  match e with
  | .write _ => timer = 0
  | .wait d => 0 < timer ∧ timer ≤ ticks d

/-- A busy block stands at an event of its operation (R32), which is `init_lcd` exactly in the phase
`Initializing` (R23); the mode is EightBit up to event 26 of `init_lcd` and FourBit after (R23, R171). -/
def BusyInv (s : State) : Prop :=
  s.busy = true →
    s.phase ≠ .faulted ∧
    (s.seq.op = .init ↔ s.phase = .initializing) ∧
    (s.seq.op = .init → s.bitMode = if s.seq.k ≤ 26 then .eightBit else .fourBit) ∧
    ∃ slots slot, currentSlots s = some slots ∧ slots[s.seq.k]? = some slot ∧
      timerFits slot.event s.timer

/-- The instruction register holds a record whose parameters leave the opcode's bits alone, and which
is a write (R28, R30). From a construction until the first instruction loads `ir`, which R26 leaves
unspecified, this holds by the model's choice of the all-zero record (log entry 7). -/
def RecordInv (s : State) : Prop :=
  s.ir.opcode &&& s.ir.parameters = 0x00 ∧ s.ir.readWrite = false

/-- Every byte written so far has RW clear (R88). -/
def BytesInv (s : State) : Prop := ∀ b ∈ writes s.trace, b.getLsbD 1 = false

/-- The invariant that every step keeps. -/
structure Coherent (s : State) : Prop where
  mode : ModeInv s
  idle : IdleInv s
  busy : BusyInv s
  record : RecordInv s
  bytes : BytesInv s
  pins : Memory.wf s.pins

end Sys2Proof.Machine
end

