-- ==== Sys2Proof/Certificates/Slice0/Obligations.lean ====
section
/-! DEFINITION. The statements for the provers. Each follows the rule of spec/ its docstring names. -/

open Sys2Proof Sys2Proof.Machine

/-! ### Encoding and decoding -/

/-- R72, R85: the word of every well-formed call, as bytes with any bytes after it, decodes to that call
and leaves those bytes. That a word is laid out low byte first is the model's choice, log entry 2. -/
def Obligations.EncodedCallDecodesBack : Prop :=
  ∀ (i : Instr) (rest : List Byte), i.wellFormed = true →
    decode (encodeBytes i ++ rest) = .ok (i, rest)

/-- R72, R73: a word that decodes is the word of the call it decodes to: `IB` determines opcode and
parameters. -/
def Obligations.DecodedWordEncodesBack : Prop :=
  ∀ (w : InstrWord) (i : Instr), decodeWord w = .ok i → encode i = w

/-- R85: the words of the well-formed calls are the listed ones, 472 of them. -/
def Obligations.FactoryProducesTheListedWords : Prop :=
  (∀ w : InstrWord, (∃ i : Instr, i.wellFormed = true ∧ encode i = w) ↔ factoryWord w = true) ∧
  ((List.range 1024).filter (fun n => factoryWord (BitVec.ofNat 10 n))).length = 472

/-- R87: a word with RW set decodes to nothing, and a step that meets one refuses it as a read. -/
def Obligations.ReadWordsAreRefused : Prop :=
  (∀ w : InstrWord, w.getLsbD 8 = true → decodeWord w = .error .readWord) ∧
  ∀ (s : State) (lo hi : Byte) (rest : List Command),
    s.busy = false → s.commands = .word lo hi :: rest → hi &&& 0xFC = 0x00 → hi.getLsbD 0 = true →
    step s = .refused .readPathUnsupported

/-- R85, U15: a write word no constructor produces has no meaning. The words 0x02C and 0x03C are R86's:
they run as the call that ends with InvalidConfiguration. The refusal by name is the model's choice, log
entry 2. -/
def Obligations.UnproducedWordsAreRefused : Prop :=
  ∀ (s : State) (w : InstrWord) (rest : List Command),
    s.busy = false → s.commands = .word (w.setWidth 8) ((w.extractLsb' 8 2).setWidth 8) :: rest →
    w.getLsbD 8 = false → factoryWord w = false →
    (w ≠ 0x02C ∧ w ≠ 0x03C → step s = .refused .noSuchInstruction) ∧
    (w = 0x02C → step s = exec (.functionSet .fourBit .twoLines .font10x5) { s with commands := rest }) ∧
    (w = 0x03C → step s = exec (.functionSet .eightBit .twoLines .font10x5) { s with commands := rest })

/-- R79, R80, the table of 95_test_vectors.md sections 2.2 and 2.3: words written out from the encoding
decode to the calls they stand for. -/
def Obligations.WordsOfTheSpecDecode : Prop :=
  decodeWord 0b1001001000 = .ok (.writeData 0x48) ∧
  decodeWord 0b0000000001 = .ok .clearDisplay ∧
  decodeWord 0b0000000010 = .ok .returnHome ∧
  decodeWord 0b0000000110 = .ok (.entryModeSet .increment .shiftOff) ∧
  decodeWord 0b0000001100 = .ok (.displayOnOff .on .off .off) ∧
  decodeWord 0b0000010100 = .ok (.cursorOrDisplayShift .cursor .right) ∧
  decodeWord 0b0000101000 = .ok (.functionSet .fourBit .twoLines .font8x5) ∧
  decodeWord 0b0001010101 = .ok (.setCgramAddress 0x15) ∧
  decodeWord 0b0011000000 = .ok (.setDdramAddress 0x40)

/-! ### The factory and its records -/

/-- R120: the numeric constructors fail with OutOfRange exactly outside `[0, max]`, and inside take the
operand as it is, without wrap-around. -/
def Obligations.NumericOperandsAreRangeChecked : Prop :=
  ∀ T : Durations,
  (∀ x : Int, x < 0 ∨ 0x3F < x → build T (.setCgramAddress x) = .error (.outOfRange x)) ∧
  (∀ x : Int, 0 ≤ x → x ≤ 0x3F →
    ∃ r, build T (.setCgramAddress x) = .ok r ∧ (r.parameters.toNat : Int) = x) ∧
  (∀ x : Int, x < 0 ∨ 0x7F < x → build T (.setDdramAddress x) = .error (.outOfRange x)) ∧
  (∀ x : Int, 0 ≤ x → x ≤ 0x7F →
    ∃ r, build T (.setDdramAddress x) = .ok r ∧ (r.parameters.toNat : Int) = x) ∧
  (∀ x : Int, x < 0 ∨ 0xFF < x → build T (.writeData x) = .error (.outOfRange x)) ∧
  (∀ x : Int, 0 ≤ x → x ≤ 0xFF →
    ∃ r, build T (.writeData x) = .ok r ∧ (r.parameters.toNat : Int) = x)

/-- R107, R100: a constructor returns a record exactly for the well-formed calls; the only combination
`function_set` rejects is TwoLines with Font10x5, whatever the bit width. -/
def Obligations.FactoryAcceptsTheWellFormedCalls : Prop :=
  ∀ T : Durations,
  (∀ i : Instr, (∃ r, build T i = .ok r) ↔ i.wellFormed = true) ∧
  ∀ (w : BitWidth) (n : LineCount) (f : Font) (e : CmdError),
    build T (.functionSet w n f) = .error e ↔
      n = .twoLines ∧ f = .font10x5 ∧ e = .invalidConfiguration .twoLines .font10x5

/-- R28, R29, R30: every record of the factory keeps its parameters off the opcode's bits, is a write,
and selects the data register exactly for `write_data`. -/
def Obligations.RecordsKeepTheirContract : Prop :=
  ∀ (T : Durations) (i : Instr) (r : InstrRecord), build T i = .ok r →
    r.opcode &&& r.parameters = 0x00 ∧ r.readWrite = false ∧
    (r.registerSelect = true ↔ ∃ byte, i = .writeData byte)

/-- R81: the delay `T_LONG` for `clear_display` and `return_home`, `T_SHORT` for the other seven, for
every operand. -/
def Obligations.CompletionDelayFollowsTheOpcode : Prop :=
  ∀ (T : Durations) (i : Instr) (r : InstrRecord), build T i = .ok r →
    r.completionDelay = match i with
      | .clearDisplay => T.long
      | .returnHome => T.long
      | .entryModeSet _ _ => T.short
      | .displayOnOff _ _ _ => T.short
      | .cursorOrDisplayShift _ _ => T.short
      | .functionSet _ _ _ => T.short
      | .setCgramAddress _ => T.short
      | .setDdramAddress _ => T.short
      | .writeData _ => T.short

/-- R72: the instruction word of the record a constructor returns is the word of the call. -/
def Obligations.RecordWordIsTheEncoding : Prop :=
  ∀ (T : Durations) (i : Instr) (r : InstrRecord), build T i = .ok r → recordWord r = encode i

/-! ### The port bytes and the nibble protocol -/

/-- R76, R77, R78: which bit of a record each bit of its two nibble bytes is. -/
def Obligations.NibbleBytesBitForBit : Prop :=
  ∀ r : InstrRecord,
    (∀ j, j < 4 → (hiByte r).getLsbD (4 + j) = (r.opcode ||| r.parameters).getLsbD (4 + j)) ∧
    (∀ j, j < 4 → (loByte r).getLsbD (4 + j) = (r.opcode ||| r.parameters).getLsbD j) ∧
    (hiByte r).getLsbD 0 = r.registerSelect ∧ (loByte r).getLsbD 0 = r.registerSelect ∧
    (hiByte r).getLsbD 1 = r.readWrite ∧ (loByte r).getLsbD 1 = r.readWrite ∧
    (hiByte r).getLsbD 2 = false ∧ (loByte r).getLsbD 2 = false ∧
    (hiByte r).getLsbD 3 = false ∧ (loByte r).getLsbD 3 = false

/-- R82 (as 90_conflicts.md C1 corrects it): the two nibble bytes together give the instruction byte
back, and agree in their low bits. -/
def Obligations.NibbleSplitRoundTrip : Prop :=
  ∀ r : InstrRecord,
    (hiByte r &&& (0xF0 : Byte)) ||| (loByte r >>> 4) = r.opcode ||| r.parameters ∧
    hiByte r &&& 0x03 = controlBits r ∧ loByte r &&& 0x03 = controlBits r ∧
    hiByte r &&& 0x0C = 0x00 ∧ loByte r &&& 0x0C = 0x00

/-- R138: a nibble transmission makes three writes, the third equal to the first, and the second
differing from them in bit 2 alone, which they have clear. -/
def Obligations.NibbleTransmissionWrites : Prop :=
  ∀ (T : Durations) (backlight : Bool) (b : Byte), b.getLsbD 2 = false →
    ∃ w, w = b ||| (if backlight then 0x08 else 0x00) ∧
      writes (nibbleTx T backlight b) = [w, w ||| 0x04, w] ∧
      ∀ j, j < 8 → (w.getLsbD j = (w ||| 0x04).getLsbD j ↔ j ≠ 2)

/-- R133, R135, R139, R144: the event list of `execute`, 6 events in EightBit and 11 in FourBit, the completion
delay once at the end, and the least time it takes. -/
def Obligations.EventsOfExecute : Prop :=
  ∀ (T : Durations) (backlight : Bool) (r : InstrRecord),
    executeEvents T .eightBit backlight r =
      pulse T (hiByte r ||| (if backlight then 0x08 else 0x00)) ++ [.wait r.completionDelay] ∧
    executeEvents T .fourBit backlight r =
      pulse T (hiByte r ||| (if backlight then 0x08 else 0x00)) ++
      pulse T (loByte r ||| (if backlight then 0x08 else 0x00)) ++ [.wait r.completionDelay] ∧
    waitTotal (executeEvents T .eightBit backlight r) =
      T.pweh + (T.enableCyc - T.pweh) + r.completionDelay ∧
    waitTotal (executeEvents T .fourBit backlight r) =
      2 * (T.pweh + (T.enableCyc - T.pweh)) + r.completionDelay

/-- R142: the event at position `k` of an instruction is what the transmitter's state at `k` does. -/
def Obligations.TransmitterStatesNameTheEvents : Prop :=
  ∀ (T : Durations) (mode : BitWidth) (backlight : Bool) (r : InstrRecord) (k : Nat),
    (executeEvents T mode backlight r)[k]? = (txStateAt mode k).map (txEvent T backlight r)

/-- R67: the display is given RS, RW = 0 and the high nibble, then, in FourBit, the low nibble. -/
def Obligations.DisplayIsGivenTheNibbles : Prop :=
  ∀ (T : Durations) (backlight : Bool) (r : InstrRecord), r.readWrite = false →
    sampled (executeEvents T .eightBit backlight r) =
      [(r.registerSelect, false, (instrByte r).extractLsb' 4 4)] ∧
    sampled (executeEvents T .fourBit backlight r) =
      [(r.registerSelect, false, (instrByte r).extractLsb' 4 4),
       (r.registerSelect, false, (instrByte r).extractLsb' 0 4)]

/-- R57, R132: in EightBit the low nibble is lost: two records that differ in it alone send the same
events, and in FourBit they do not. -/
def Obligations.LowNibbleIsDiscardedInEightBit : Prop :=
  ∀ (T : Durations) (backlight : Bool) (r r' : InstrRecord),
    r.registerSelect = r'.registerSelect → r.readWrite = r'.readWrite →
    r.completionDelay = r'.completionDelay →
    (instrByte r).extractLsb' 4 4 = (instrByte r').extractLsb' 4 4 →
    executeEvents T .eightBit backlight r = executeEvents T .eightBit backlight r' ∧
    (executeEvents T .fourBit backlight r = executeEvents T .fourBit backlight r' ↔
      instrByte r = instrByte r')

/-- R137, R139, R141, R241 (a) and (b): whatever instructions are executed one after the other, in
whatever modes, enable stays high for at least `T_PWEH` in every pulse, its rises are at least
`T_ENABLE_CYC` apart, and the writes are pulses of three. -/
def Obligations.EnablePulsesKeepTheirTiming : Prop :=
  ∀ (T : Durations) (backlight : Bool) (program : List (BitWidth × InstrRecord)),
    pulsesHeld T (program.flatMap (fun x => executeEvents T x.1 backlight x.2)) = true ∧
    risesApart T (program.flatMap (fun x => executeEvents T x.1 backlight x.2)) = true ∧
    inPulses (writes (program.flatMap (fun x => executeEvents T x.1 backlight x.2))) = true

/-! ### What each instruction does when it runs to its end

The opcode and flag values are those of R79 and R80, of which the spec takes some from general knowledge
(log entry 13); the durations are those of the instantiation (R10), whatever they are. -/

/-- R102: `clear_display` sends 0x00 and 0x10 and waits `T_LONG`. -/
def Obligations.ClearDisplayCompletes : Prop :=
  ∀ s : State, runsToEnd s →
    exec .clearDisplay s =
      .next (completedExec (writeRecord 0x01 0x00 false s.durations.long) 0x00 0x10 s)

/-- R103: `return_home` sends 0x00 and 0x20 and waits `T_LONG`. -/
def Obligations.ReturnHomeCompletes : Prop :=
  ∀ s : State, runsToEnd s →
    exec .returnHome s =
      .next (completedExec (writeRecord 0x02 0x00 false s.durations.long) 0x00 0x20 s)

/-- R104: `entry_mode_set` sends 0x00 and 0x40 to 0x70 and waits `T_SHORT`. -/
def Obligations.EntryModeSetCompletes : Prop :=
  ∀ (dir : EntryDirection) (shift : EntryShift) (s : State), runsToEnd s →
    ∃ par : Byte,
      par = (if dir = .increment then 0x02 else 0x00) ||| (if shift = .shiftOn then 0x01 else 0x00) ∧
      exec (.entryModeSet dir shift) s =
        .next (completedExec (writeRecord 0x04 par false s.durations.short) 0x00 ((0x04 ||| par) <<< 4) s)

/-- R105: `display_on_off` sends 0x00 and 0x80 to 0xF0 and waits `T_SHORT`. -/
def Obligations.DisplayOnOffCompletes : Prop :=
  ∀ (display cursor blinking : Switch) (s : State), runsToEnd s →
    ∃ par : Byte,
      par = (if display = .on then 0x04 else 0x00) ||| (if cursor = .on then 0x02 else 0x00) |||
        (if blinking = .on then 0x01 else 0x00) ∧
      exec (.displayOnOff display cursor blinking) s =
        .next (completedExec (writeRecord 0x08 par false s.durations.short) 0x00 ((0x08 ||| par) <<< 4) s)

/-- R106: `cursor_or_display_shift` sends 0x10 and 0x00 to 0xC0 and waits `T_SHORT`. -/
def Obligations.CursorOrDisplayShiftCompletes : Prop :=
  ∀ (target : ShiftTarget) (direction : ShiftDirection) (s : State), runsToEnd s →
    ∃ par : Byte,
      par = (if target = .display then 0x08 else 0x00) |||
        (if direction = .right then 0x04 else 0x00) ∧
      exec (.cursorOrDisplayShift target direction) s =
        .next (completedExec (writeRecord 0x10 par false s.durations.short) 0x10 (par <<< 4) s)

/-- R107, R101: a valid `function_set` sends 0x30 or 0x20 and 0x00, 0x40 or 0x80, waits `T_SHORT`, and leaves
`bit_mode` alone whatever its `bit_width`. -/
def Obligations.FunctionSetCompletes : Prop :=
  ∀ (bitWidth : BitWidth) (lineCount : LineCount) (font : Font) (s : State), runsToEnd s →
    ¬ (lineCount = .twoLines ∧ font = .font10x5) →
    ∃ par : Byte,
      par = (if bitWidth = .eightBit then 0x10 else 0x00) |||
        (if lineCount = .twoLines then 0x08 else 0x00) ||| (if font = .font10x5 then 0x04 else 0x00) ∧
      exec (.functionSet bitWidth lineCount font) s =
        .next (completedExec (writeRecord 0x20 par false s.durations.short)
          (if bitWidth = .eightBit then 0x30 else 0x20) (par <<< 4) s)

/-- R121: `set_cgram_address` with an address up to 0x3F. -/
def Obligations.SetCgramAddressCompletes : Prop :=
  ∀ (addr : Int) (s : State), runsToEnd s → 0 ≤ addr → addr ≤ 0x3F →
    ∃ a : Byte, (a.toNat : Int) = addr ∧
      exec (.setCgramAddress addr) s =
        .next (completedExec (writeRecord 0x40 a false s.durations.short)
          (0x40 ||| (a &&& 0x30)) ((a &&& 0x0F) <<< 4) s)

/-- R122: `set_ddram_address` with an address up to 0x7F, whatever the configured line count. -/
def Obligations.SetDdramAddressCompletes : Prop :=
  ∀ (addr : Int) (s : State), runsToEnd s → 0 ≤ addr → addr ≤ 0x7F →
    ∃ a : Byte, (a.toNat : Int) = addr ∧
      exec (.setDdramAddress addr) s =
        .next (completedExec (writeRecord 0x80 a false s.durations.short)
          (0x80 ||| (a &&& 0x70)) ((a &&& 0x0F) <<< 4) s)

/-- R123: `write_data` with a byte up to 0xFF; RS is set in every byte. -/
def Obligations.WriteDataCompletes : Prop :=
  ∀ (byte : Int) (s : State), runsToEnd s → 0 ≤ byte → byte ≤ 0xFF →
    ∃ a : Byte, (a.toNat : Int) = byte ∧
      exec (.writeData byte) s =
        .next (completedExec (writeRecord 0x00 a true s.durations.short)
          (0x01 ||| (a &&& 0xF0))
          ((0x01 : Byte) ||| ((a &&& 0x0F) <<< 4)) s)

/-- R134, R145: in `Ready` every instruction goes out as two nibbles; before `INIT` only its high nibble
goes out and the phase stays `Uninitialized`. -/
def Obligations.PathFollowsThePhase : Prop :=
  ∀ (i : Instr) (r : InstrRecord) (s : State), Coherent s → build s.durations i = .ok r → unpaused s →
    (s.phase = .ready → acked 6 s → ∃ t, exec i s = .next t ∧ t.phase = .ready ∧
      writes t.trace = writes s.trace ++
        [hiByte r ||| lit s, hiByte r ||| lit s ||| 0x04, hiByte r ||| lit s,
         loByte r ||| lit s, loByte r ||| lit s ||| 0x04, loByte r ||| lit s]) ∧
    (s.phase = .uninitialized → acked 3 s → ∃ t, exec i s = .next t ∧ t.phase = .uninitialized ∧
      writes t.trace = writes s.trace ++
        [hiByte r ||| lit s, hiByte r ||| lit s ||| 0x04, hiByte r ||| lit s])

/-! ### Errors -/

/-- R201, R130, R160, R207: an error found before the transmission changes nothing but `err` and the list
of responses: a constructor's error, a command to a Faulted block, a second `INIT`, an `INIT` with an
invalid configuration. That an invalid pair is found when `INIT` is accepted is the spec's decision on what the
source leaves open (R160, U13; log entry 15), and so is the gate of a `SequenceError` (R130, R207; log
entry 17). -/
def Obligations.PreciseErrorsChangeNothingElse : Prop :=
  (∀ (i : Instr) (e : CmdError) (s : State), s.phase ≠ .faulted → build s.durations i = .error e →
    exec i s = .next { s with err := errorCode e, responses := s.responses ++ [.failed e] }) ∧
  (∀ (i : Instr) (s : State), s.phase = .faulted →
    exec i s = .next { s with
      err := .sequenceError, responses := s.responses ++ [.failed (.sequenceError .faulted)] }) ∧
  (∀ s : State, s.phase ≠ .uninitialized →
    execInit s = .next { s with
      err := .sequenceError, responses := s.responses ++ [.failed (.sequenceError s.phase)] }) ∧
  (∀ s : State, s.phase = .uninitialized → s.cfg.lines = .twoLines → s.cfg.font = .font10x5 →
    execInit s = .next { s with
      err := .invalidConfiguration
      responses := s.responses ++ [.failed (.invalidConfiguration .twoLines .font10x5)] })

/-- R202, R203: which operands end an instruction with which error. -/
def Obligations.RejectedOperandsEndTheCommand : Prop :=
  ∀ s : State, s.phase ≠ .faulted →
    (∀ w, exec (.functionSet w .twoLines .font10x5) s = .next { s with
      err := .invalidConfiguration
      responses := s.responses ++ [.failed (.invalidConfiguration .twoLines .font10x5)] }) ∧
    (∀ x : Int, x < 0 ∨ 0x3F < x → exec (.setCgramAddress x) s = .next { s with
      err := .outOfRange, responses := s.responses ++ [.failed (.outOfRange x)] }) ∧
    (∀ x : Int, x < 0 ∨ 0x7F < x → exec (.setDdramAddress x) s = .next { s with
      err := .outOfRange, responses := s.responses ++ [.failed (.outOfRange x)] }) ∧
    (∀ x : Int, x < 0 ∨ 0xFF < x → exec (.writeData x) s = .next { s with
      err := .outOfRange, responses := s.responses ++ [.failed (.outOfRange x)] })

/-- R205, R206: the write at position `k` of an instruction is answered fail, the writes before it are
acknowledged: the events before it stand, nothing follows, the block is Faulted, the report goes to the
host, and the failed byte may have reached the pins, which the model leaves to the transport's answer (log
entry 9). -/
def Obligations.TransportFailureEndsTheInstruction : Prop :=
  ∀ (i : Instr) (r : InstrRecord) (s : State) (k : Nat) (b : Byte) (before : List Event)
    (taken : Bool) (report : TransportReport),
    build s.durations i = .ok r → s.phase ≠ .faulted → unpaused s →
    (executeEvents s.durations s.bitMode s.cfg.backlight r)[k]? = some (.write b) →
    before = (executeEvents s.durations s.bitMode s.cfg.backlight r).take k →
    acked (writeCount before) s →
    s.answers[writeCount before]? = some (.fail taken report) →
    exec i s = .next { s with
      ir := r
      phase := .faulted
      seq := Seq.idle
      timer := 0
      err := .transportFailure
      busy := false
      pins := if taken then Memory.write s.pins s.transport b
        else match (writes before).getLast? with
          | none => s.pins
          | some c => Memory.write s.pins s.transport c
      trace := s.trace ++ before
      answers := s.answers.drop (writeCount before + 1)
      responses := s.responses ++ [.failed (.transportFailure { op := .exec, k := k } report)] }

/-! ### What an instruction leaves unchanged -/

/-- R101, R143: the frame of all nine instructions: `bit_mode`, `cfg`, the binding, the durations, the
commands still to come and the pins of every other port stay; the phase changes only to Faulted with a
transport failure; `ir` keeps its value or takes the record of the call; the trace grows by a first part of the
record's events, in order, or not at all. -/
def Obligations.InstructionFrame : Prop :=
  ∀ (i : Instr) (s t : State), exec i s = .next t →
    t.bitMode = s.bitMode ∧ t.cfg = s.cfg ∧ t.transport = s.transport ∧
    t.durations = s.durations ∧ t.commands = s.commands ∧
    (t.phase = s.phase ∨ t.phase = .faulted ∧ t.err = .transportFailure) ∧
    (∀ q, q ≠ s.transport → Memory.read t.pins q = Memory.read s.pins q) ∧
    ((t.ir = s.ir ∧ t.trace = s.trace ∧ t.pins = s.pins ∧ t.seq = s.seq ∧ t.timer = s.timer ∧
        t.busy = s.busy) ∨
      ∃ r n, build s.durations i = .ok r ∧ t.ir = r ∧
        t.trace = s.trace ++ (executeEvents s.durations s.bitMode s.cfg.backlight r).take n)

/-- R42: a command that ends gives exactly one response, whose code `err` takes; one that is still
running has given none. -/
def Obligations.OneResponsePerInstruction : Prop :=
  ∀ (i : Instr) (s t : State), s.busy = false → exec i s = .next t →
    (t.busy = false ∧ ∃ r, t.responses = s.responses ++ [r] ∧ t.err = responseCode r) ∨
    (t.busy = true ∧ t.responses = s.responses ∧ t.err = s.err)

/-- R141 (c): when an instruction has completed, enable is low on the pins. -/
def Obligations.EnableIsLowAfterCompletion : Prop :=
  ∀ (i : Instr) (s t : State), s.busy = false → exec i s = .next t →
    t.responses = s.responses ++ [.done] → (pinLevels t).getLsbD 2 = false

/-! ### The handshake -/

/-- R168, R170: the 71 events of `init_lcd` under every valid configuration, their 36 writes and the
least time they take. -/
def Obligations.EventsOfInit : Prop :=
  ∀ (T : Durations) (cfg : Cfg), invalidPair cfg.lines cfg.font = false →
    initEvents T cfg = handshake T (if cfg.backlight then 0x08 else 0x00) (userLowNibble cfg) ∧
    (initEvents T cfg).length = 71 ∧ writeCount (initEvents T cfg) = 36 ∧
    waitTotal (initEvents T cfg) =
      T.powerOn + T.init1 + T.init2 + 12 * (T.pweh + (T.enableCyc - T.pweh)) + 7 * T.short + T.long

/-- R169: every one of the 36 writes of `init_lcd` carries the backlight bit as configured; with the
backlight on the first byte is 0x38. -/
def Obligations.BacklightDuringInit : Prop :=
  ∀ (T : Durations) (cfg : Cfg), invalidPair cfg.lines cfg.font = false →
    writeCount (initEvents T cfg) = 36 ∧ (∀ b ∈ writes (initEvents T cfg), b.getLsbD 3 = cfg.backlight) ∧
    (writes (initEvents T cfg)).head? = some (if cfg.backlight then 0x38 else 0x30)

/-- R141, R241: the pulses of `init_lcd` keep the timing of enable. -/
def Obligations.InitPulsesKeepTheirTiming : Prop :=
  ∀ (T : Durations) (cfg : Cfg), invalidPair cfg.lines cfg.font = false →
    pulsesHeld T (initEvents T cfg) = true ∧ risesApart T (initEvents T cfg) = true ∧
    inPulses (writes (initEvents T cfg)) = true

/-- R160, R166, R167, R168: `INIT` on an uninitialised block with a valid configuration emits the
handshake, leaves `bit_mode` FourBit, the phase Ready, and responds with success. -/
def Obligations.InitCompletes : Prop :=
  ∀ s : State, initRunsToEnd s →
    execInit s = .next { completed (writeRecord 0x04 0x02 false s.durations.short)
        (handshake s.durations (lit s) (userLowNibble s.cfg)) (0x60 ||| lit s) s with
      phase := .ready, bitMode := .fourBit }

/-- R23, R32, R165: an `init_lcd` that is looked at while event `k` is in progress: the first `k` events
are done, the phase is Initializing, and `bit_mode` is EightBit up to event 26 and FourBit from event 27
on. -/
def Obligations.InitInProgress : Prop :=
  ∀ (s : State) (k : Nat), s.phase = .uninitialized → s.bitMode = .eightBit →
    invalidPair s.cfg.lines s.cfg.font = false → s.pauses = [{ events := k, clocks := 0 }] →
    acked 36 s → k < 71 →
    ∃ t, execInit s = .next t ∧ t.busy = true ∧ t.phase = .initializing ∧
      t.seq = { op := .init, k := k } ∧ t.bitMode = (if k ≤ 26 then .eightBit else .fourBit) ∧
      t.trace = s.trace ++ (handshake s.durations (lit s) (userLowNibble s.cfg)).take k ∧
      t.responses = s.responses ∧ t.err = s.err

/-- R171, R205, R206: a write of `init_lcd` that fails ends it: `bit_mode` is EightBit up to event 26 and
FourBit after. The pins hold their old byte or the failed one, which the model leaves to the transport's
answer (log entry 9). -/
def Obligations.TransportFailureEndsInit : Prop :=
  ∀ (s : State) (k : Nat) (b : Byte) (before : List Event) (taken : Bool) (report : TransportReport),
    s.phase = .uninitialized → s.bitMode = .eightBit →
    invalidPair s.cfg.lines s.cfg.font = false → unpaused s →
    (handshake s.durations (lit s) (userLowNibble s.cfg))[k]? = some (.write b) →
    before = (handshake s.durations (lit s) (userLowNibble s.cfg)).take k →
    acked (writeCount before) s →
    s.answers[writeCount before]? = some (.fail taken report) →
    ∃ t, execInit s = .next t ∧ t.phase = .faulted ∧ t.seq = Seq.idle ∧ t.timer = 0 ∧
      t.busy = false ∧ t.err = .transportFailure ∧ t.cfg = s.cfg ∧ t.transport = s.transport ∧
      t.bitMode = (if k ≤ 26 then .eightBit else .fourBit) ∧ t.trace = s.trace ++ before ∧
      t.responses = s.responses ++ [.failed (.transportFailure { op := .init, k := k } report)] ∧
      t.pins = if taken then Memory.write s.pins s.transport b
        else match (writes before).getLast? with
          | none => s.pins
          | some c => Memory.write s.pins s.transport c

/-! ### Reset -/

/-- R45: what the registers hold at `State.reset`. The configuration and the binding, which the host
supplies, and `ir`, which the spec leaves open, are the model's choice (log entries 5, 6, 7) and are not
stated. -/
def Obligations.ResetRegisterValues : Prop :=
  State.reset.bitMode = .eightBit ∧ State.reset.phase = .uninitialized ∧
  State.reset.cfg.bitWidth = .fourBit ∧ State.reset.seq = Seq.idle ∧ State.reset.timer = 0 ∧
  State.reset.busy = false ∧ State.reset.err = .success

/-- R230, R232, R204: `CONSTRUCT` on an idle block: every register takes its value, no event is emitted,
the pins keep theirs. That the record in `ir` is all zero is the model's choice, log entry 7; that a
rejected construction keeps the configuration given, which R24 and R45 do not say, is the model's
deduction, log entry 18. -/
def Obligations.ConstructSetsEveryRegister : Prop :=
  ∀ (s : State) (cfg : Cfg) (transport : Nat) (rest : List Command),
    s.busy = false → s.commands = .construct cfg transport :: rest →
    step s = .next { s with
      bitMode := .eightBit
      phase := if cfg.bitWidth = .eightBit then .faulted else .uninitialized
      cfg := cfg
      transport := transport
      ir := writeRecord 0x00 0x00 false 0
      seq := Seq.idle
      timer := 0
      err := if cfg.bitWidth = .eightBit then .unsupportedMode else .success
      busy := false
      commands := rest }

/-- R204: a block constructed for the 8-bit wire mode emits nothing and answers every command with a
SequenceError. That it keeps the configuration given is the model's deduction, log entry 18. -/
def Obligations.RejectedConstructionIsDead : Prop :=
  ∀ (s : State) (cfg : Cfg) (transport : Nat) (rest : List Command), cfg.bitWidth = .eightBit →
    s.commands = .construct cfg transport :: rest →
    ∃ t, step s = .next t ∧ t.phase = .faulted ∧ t.err = .unsupportedMode ∧ t.bitMode = .eightBit ∧
      t.cfg = cfg ∧ t.trace = s.trace ∧ t.responses = s.responses ∧
      (∀ i, exec i t = .next { t with
        err := .sequenceError, responses := t.responses ++ [.failed (.sequenceError .faulted)] }) ∧
      execInit t = .next { t with
        err := .sequenceError, responses := t.responses ++ [.failed (.sequenceError .faulted)] }

/-- R237: a reset that arrives while the block is busy abandons the operation: no event, no response, the
state of R230. The pins keep their byte, or take that of a write in progress, which the model leaves
open, log entry 10. That `cfg` is the one given also for an EightBit target is the model's deduction, log
entry 18. -/
def Obligations.ResetAbandonsTheOperation : Prop :=
  ∀ (s : State) (cfg : Cfg) (transport : Nat) (rest : List Command),
    s.busy = true → s.commands = .construct cfg transport :: rest →
    ∃ t, step s = .next t ∧ t.trace = s.trace ∧ t.responses = s.responses ∧ t.commands = rest ∧
      t.busy = false ∧ t.seq = Seq.idle ∧ t.timer = 0 ∧ t.bitMode = .eightBit ∧ t.cfg = cfg ∧
      t.transport = transport ∧
      t.phase = (if cfg.bitWidth = .eightBit then .faulted else .uninitialized) ∧
      t.err = (if cfg.bitWidth = .eightBit then .unsupportedMode else .success) ∧
      (∀ q, q ≠ s.transport → Memory.read t.pins q = Memory.read s.pins q) ∧
      (t.pins = s.pins ∨ ∃ b, pendingWrite s = some b ∧ t.pins = Memory.write s.pins s.transport b)

/-! ### The step -/

/-- R41, R43, R231: a step of an idle block runs the instruction presented to it, as a call or as its
word, and takes it off the port; what is placed with `withFetchWord` is that instruction; an idle block
to which nothing is presented does nothing. -/
def Obligations.StepRunsTheNextInstruction : Prop :=
  (∀ (s : State) (i : Instr) (rest : List Command), s.busy = false → s.commands = .exec i :: rest →
    step s = exec i { s with commands := rest }) ∧
  (∀ (s : State) (i : Instr) (lo hi : Byte) (rest : List Command) (left : List Byte),
    s.busy = false → s.commands = .word lo hi :: rest → decode [lo, hi] = .ok (i, left) →
    step s = exec i { s with commands := rest }) ∧
  (∀ (s : State) (i : Instr) (nbits w : Nat), decodeTableWord nbits w = some i →
    step (s.withFetchWord nbits w) = exec i { s with seq := Seq.idle, timer := 0, busy := false }) ∧
  (∀ (s : State) (rest : List Command), s.busy = false → s.commands = .init :: rest →
    step s = execInit { s with commands := rest }) ∧
  (∀ s : State, s.busy = false → s.commands = [] → step s = .next s)

/-- R43, with the host's commands as a list (log entry 1): a command presented to a busy block, other
than a reset, is neither dropped nor started: it waits, and the running operation goes on. -/
def Obligations.BusyBlockLetsCommandsWait : Prop :=
  ∀ s : State, s.busy = true → noConstruct s → step s = resume s ∧
    ∀ t : State, step s = .next t →
      t.commands = s.commands ∧ t.cfg = s.cfg ∧ t.transport = s.transport ∧
      s.seq.op ≠ .idle ∧ ∃ new, t.trace = s.trace ++ new

/-- R62, R64: where a run pauses (the model's own input, log entry 4) makes no difference to what it
does, whether an instruction starts it, `INIT` starts it, or it goes on from an earlier pause: a run that
pauses and then goes on ends in the state in which it ends without the pause. -/
def Obligations.PausedRunEndsTheSame : Prop :=
  ∀ (s : State) (p : Pause), noConstruct s → s.pauses = [p] →
    (∀ (i : Instr) (t u : State), s.busy = false →
      exec i s = .next t → exec i { s with pauses := [] } = .next u →
      (t.busy = true → step t = .next u) ∧ (t.busy = false → { t with pauses := [] } = u)) ∧
    (∀ t u : State, s.busy = false →
      execInit s = .next t → execInit { s with pauses := [] } = .next u →
      (t.busy = true → step t = .next u) ∧ (t.busy = false → { t with pauses := [] } = u)) ∧
    (∀ t u : State, s.busy = true →
      step s = .next t → step { s with pauses := [] } = .next u →
      (t.busy = true → step t = .next u) ∧ (t.busy = false → t = u))

/-! ### The invariant and the whole-machine rules -/

/-- R22, R23, R28, R30, R45: the invariant holds at reset. Its clause on `ir`, which R26 leaves unspecified
there, holds by the model's choice of the all-zero record, log entry 7. -/
def Obligations.ResetMeetsTheInvariant : Prop := Coherent State.reset

/-- R22, R23, R24, R28, R30, R32, R34, R35, R88, R160: the invariant is kept by every step from every state
that meets it. After a construction its clause on `ir`, which R26 leaves unspecified there, holds by the
model's choice of the all-zero record, log entry 7; its clause that a block past the acceptance of `INIT`
has a valid pair of lines and font is R160's check, log entry 15. -/
def Obligations.StepKeepsTheInvariant : Prop :=
  ∀ s t : State, Coherent s → step s = .next t → Coherent t

/-- R33, R35: a state that meets the invariant never stops for a lost sequencer; a step from it faults in
no way at all. -/
def Obligations.NoStepFaults : Prop :=
  ∀ (s : State) (f : Fault), Coherent s → step s ≠ .fault f

/-- R22: `bit_mode` changes in two ways only: to FourBit in a run of `init_lcd`, to EightBit by
construction. -/
def Obligations.BitModeChangesOnlyInInit : Prop :=
  ∀ s t : State, Coherent s → step s = .next t → t.bitMode ≠ s.bitMode →
    (∃ cfg transport rest, s.commands = .construct cfg transport :: rest ∧ t.bitMode = .eightBit) ∨
    (t.bitMode = .fourBit ∧
      (s.phase = .initializing ∨ s.phase = .uninitialized ∧ ∃ rest, s.commands = .init :: rest))

/-- R23: the phase moves only along the lifecycle: from Uninitialized by `INIT`, from Initializing to
Ready, to Faulted by a transport failure, and otherwise only by construction. -/
def Obligations.PhaseFollowsTheLifecycle : Prop :=
  ∀ s t : State, Coherent s → noConstruct s → step s = .next t →
    t.phase = s.phase ∨
    (t.phase = .faulted ∧ t.err = .transportFailure) ∨
    (s.phase = .initializing ∧ t.phase = .ready ∧ t.bitMode = .fourBit) ∨
    (s.phase = .uninitialized ∧ (∃ rest, s.commands = .init :: rest) ∧
      (t.phase = .initializing ∧ t.busy = true ∨ t.phase = .ready ∧ t.bitMode = .fourBit))

/-- R24, R25, R188, R232: the configuration and the binding change by construction only, the durations of
the instantiation not at all. -/
def Obligations.ConfigurationIsFixed : Prop :=
  ∀ s t : State, step s = .next t →
    t.durations = s.durations ∧ (noConstruct s → t.cfg = s.cfg ∧ t.transport = s.transport)

/-- R60, R88, R140: a step only adds events to the trace, and every byte it writes has RW clear and
carries the backlight bit as configured. -/
def Obligations.EveryByteWrittenIsLegal : Prop :=
  ∀ s t : State, Coherent s → step s = .next t →
    ∃ new, t.trace = s.trace ++ new ∧
      ∀ b ∈ writes new, b.getLsbD 1 = false ∧ b.getLsbD 3 = s.cfg.backlight

/-- R42, R207: a step adds at most one response and takes none back, so a run that has left the
specified behaviour stays marked. -/
def Obligations.ResponsesAreNeverTakenBack : Prop :=
  ∀ s t : State, step s = .next t →
    (∃ new, t.responses = s.responses ++ new ∧ new.length ≤ 1) ∧
    (leftSpecification s = true → leftSpecification t = true)

/-! ### The timer and the operand port -/

/-- R186: a wait of `d` nanoseconds is counted in `ceil(d * F_CLK_HZ / 10^9)` clocks, at least one. It
holds for every value of the open parameter. -/
def Obligations.TicksCoverTheWait : Prop :=
  ∀ d : Nat, 1 ≤ ticks d ∧ d * Config.clockHz ≤ ticks d * 10 ^ 9 ∧
    (ticks d = 1 ∨ (ticks d - 1) * 10 ^ 9 < d * Config.clockHz)

/-- R185: the enable pulse of an instruction looked at `c` clocks into its first wait: the counter, loaded
with the wait's clocks, has counted down by `c` and enable is high; at zero the wait is done and the
sequencer is at the next event. -/
def Obligations.TimerCountsTheWaitDown : Prop :=
  ∀ (i : Instr) (r : InstrRecord) (s : State) (c : Nat), build s.durations i = .ok r →
    s.phase ≠ .faulted → s.timer = 0 → s.pauses = [{ events := 2, clocks := c }] → acked 2 s →
    ∃ t, exec i s = .next t ∧ t.busy = true ∧ (pinLevels t).getLsbD 2 = true ∧
      (c < ticks s.durations.pweh →
        t.seq = { op := .exec, k := 2 } ∧ t.timer = ticks s.durations.pweh - c) ∧
      (ticks s.durations.pweh ≤ c → t.seq = { op := .exec, k := 3 } ∧ t.timer = 0 ∧
        t.trace = s.trace ++ (executeEvents s.durations s.bitMode s.cfg.backlight r).take 3)

/-- R11, R41: an operand field of at least 10 bits presents every integer from -1 to 256; one of 9 bits
presents -1, but not 256 (the spec says that 9 bits suffice for both; see NOTES.md). Whatever pattern
such a field holds, a value outside the range is found out. -/
def Obligations.OperandPortPresentsTheBoundaries : Prop :=
  (∀ (w : Nat) (x : Int), 10 ≤ w → -1 ≤ x → x ≤ 256 → ∃ bits : BitVec w, operandOfPort bits = x) ∧
  (∃ bits : BitVec 9, operandOfPort bits = -1) ∧
  (∀ bits : BitVec 9, operandOfPort bits ≠ 256) ∧
  (∀ (T : Durations) (w : Nat) (bits : BitVec w),
    (∃ r, build T (.writeData (operandOfPort bits)) = .ok r) ↔
      0 ≤ operandOfPort bits ∧ operandOfPort bits ≤ 0xFF)

/-! ### The default durations -/

/-- R10, R139, R144, R170: the durations of R10's table as `State.reset` has them, and the least times of
an instruction and of `init_lcd` that follow. The defaults are literals nobody audited (log entry 14). -/
def Obligations.DefaultDurationsAreTheListedOnes : Prop :=
  State.reset.durations =
    { powerOn := 15000000, init1 := 4100000, init2 := 100000, short := 40000, long := 1600000,
      pweh := 230, enableCyc := 500 } ∧
  enableRest State.reset.durations = 270 ∧
  (∀ (backlight : Bool) (i : Instr) (r : InstrRecord), build State.reset.durations i = .ok r →
    waitTotal (executeEvents State.reset.durations .fourBit backlight r) =
      if i = .clearDisplay ∨ i = .returnHome then 1601000 else 41000) ∧
  ∀ cfg : Cfg, invalidPair cfg.lines cfg.font = false →
    waitTotal (initEvents State.reset.durations cfg) = 21086000
end

