-- ==== Sys2Proof/Laws/State.lean ====
section
/-! SUPPORT. What each field of the state is after each named operation: one lemma per field and
operation, so that no later proof unfolds a record update. -/

namespace Sys2Proof.Machine

/-! ### `respond` -/

@[simp] theorem respond_bitMode (r : Response) (s : State) :
    (respond r s).bitMode = s.bitMode := rfl
@[simp] theorem respond_phase (r : Response) (s : State) : (respond r s).phase = s.phase := rfl
@[simp] theorem respond_cfg (r : Response) (s : State) : (respond r s).cfg = s.cfg := rfl
@[simp] theorem respond_transport (r : Response) (s : State) :
    (respond r s).transport = s.transport := rfl
@[simp] theorem respond_ir (r : Response) (s : State) : (respond r s).ir = s.ir := rfl
@[simp] theorem respond_seq (r : Response) (s : State) : (respond r s).seq = s.seq := rfl
@[simp] theorem respond_timer (r : Response) (s : State) : (respond r s).timer = s.timer := rfl
@[simp] theorem respond_err (r : Response) (s : State) : (respond r s).err = responseCode r := rfl
@[simp] theorem respond_busy (r : Response) (s : State) : (respond r s).busy = s.busy := rfl
@[simp] theorem respond_pins (r : Response) (s : State) : (respond r s).pins = s.pins := rfl
@[simp] theorem respond_trace (r : Response) (s : State) : (respond r s).trace = s.trace := rfl
@[simp] theorem respond_responses (r : Response) (s : State) :
    (respond r s).responses = s.responses ++ [r] := rfl
@[simp] theorem respond_durations (r : Response) (s : State) :
    (respond r s).durations = s.durations := rfl
@[simp] theorem respond_commands (r : Response) (s : State) :
    (respond r s).commands = s.commands := rfl
@[simp] theorem respond_answers (r : Response) (s : State) :
    (respond r s).answers = s.answers := rfl
@[simp] theorem respond_pauses (r : Response) (s : State) : (respond r s).pauses = s.pauses := rfl

/-! ### `startOp` -/

@[simp] theorem startOp_bitMode (op : SeqOp) (s : State) : (startOp op s).bitMode = s.bitMode := rfl
@[simp] theorem startOp_phase (op : SeqOp) (s : State) : (startOp op s).phase = s.phase := rfl
@[simp] theorem startOp_cfg (op : SeqOp) (s : State) : (startOp op s).cfg = s.cfg := rfl
@[simp] theorem startOp_transport (op : SeqOp) (s : State) :
    (startOp op s).transport = s.transport := rfl
@[simp] theorem startOp_ir (op : SeqOp) (s : State) : (startOp op s).ir = s.ir := rfl
@[simp] theorem startOp_seq (op : SeqOp) (s : State) :
    (startOp op s).seq = { op := op, k := 0 } := rfl
@[simp] theorem startOp_timer (op : SeqOp) (s : State) : (startOp op s).timer = s.timer := rfl
@[simp] theorem startOp_err (op : SeqOp) (s : State) : (startOp op s).err = s.err := rfl
@[simp] theorem startOp_busy (op : SeqOp) (s : State) : (startOp op s).busy = true := rfl
@[simp] theorem startOp_pins (op : SeqOp) (s : State) : (startOp op s).pins = s.pins := rfl
@[simp] theorem startOp_trace (op : SeqOp) (s : State) : (startOp op s).trace = s.trace := rfl
@[simp] theorem startOp_responses (op : SeqOp) (s : State) :
    (startOp op s).responses = s.responses := rfl
@[simp] theorem startOp_durations (op : SeqOp) (s : State) :
    (startOp op s).durations = s.durations := rfl
@[simp] theorem startOp_commands (op : SeqOp) (s : State) :
    (startOp op s).commands = s.commands := rfl
@[simp] theorem startOp_answers (op : SeqOp) (s : State) : (startOp op s).answers = s.answers := rfl
@[simp] theorem startOp_pauses (op : SeqOp) (s : State) : (startOp op s).pauses = s.pauses := rfl

/-! ### `endOp` -/

@[simp] theorem endOp_bitMode (s : State) : (endOp s).bitMode = s.bitMode := rfl
@[simp] theorem endOp_phase (s : State) : (endOp s).phase = s.phase := rfl
@[simp] theorem endOp_cfg (s : State) : (endOp s).cfg = s.cfg := rfl
@[simp] theorem endOp_transport (s : State) : (endOp s).transport = s.transport := rfl
@[simp] theorem endOp_ir (s : State) : (endOp s).ir = s.ir := rfl
@[simp] theorem endOp_seq (s : State) : (endOp s).seq = Seq.idle := rfl
@[simp] theorem endOp_timer (s : State) : (endOp s).timer = s.timer := rfl
@[simp] theorem endOp_err (s : State) : (endOp s).err = s.err := rfl
@[simp] theorem endOp_busy (s : State) : (endOp s).busy = false := rfl
@[simp] theorem endOp_pins (s : State) : (endOp s).pins = s.pins := rfl
@[simp] theorem endOp_trace (s : State) : (endOp s).trace = s.trace := rfl
@[simp] theorem endOp_responses (s : State) : (endOp s).responses = s.responses := rfl
@[simp] theorem endOp_durations (s : State) : (endOp s).durations = s.durations := rfl
@[simp] theorem endOp_commands (s : State) : (endOp s).commands = s.commands := rfl
@[simp] theorem endOp_answers (s : State) : (endOp s).answers = s.answers := rfl
@[simp] theorem endOp_pauses (s : State) : (endOp s).pauses = s.pauses := rfl

/-! ### `drivePins` -/

@[simp] theorem drivePins_bitMode (b : Byte) (s : State) :
    (drivePins b s).bitMode = s.bitMode := rfl
@[simp] theorem drivePins_phase (b : Byte) (s : State) : (drivePins b s).phase = s.phase := rfl
@[simp] theorem drivePins_cfg (b : Byte) (s : State) : (drivePins b s).cfg = s.cfg := rfl
@[simp] theorem drivePins_transport (b : Byte) (s : State) :
    (drivePins b s).transport = s.transport := rfl
@[simp] theorem drivePins_ir (b : Byte) (s : State) : (drivePins b s).ir = s.ir := rfl
@[simp] theorem drivePins_seq (b : Byte) (s : State) : (drivePins b s).seq = s.seq := rfl
@[simp] theorem drivePins_timer (b : Byte) (s : State) : (drivePins b s).timer = s.timer := rfl
@[simp] theorem drivePins_err (b : Byte) (s : State) : (drivePins b s).err = s.err := rfl
@[simp] theorem drivePins_busy (b : Byte) (s : State) : (drivePins b s).busy = s.busy := rfl
@[simp] theorem drivePins_pins (b : Byte) (s : State) :
    (drivePins b s).pins = Memory.write s.pins s.transport b := rfl
@[simp] theorem drivePins_trace (b : Byte) (s : State) : (drivePins b s).trace = s.trace := rfl
@[simp] theorem drivePins_responses (b : Byte) (s : State) :
    (drivePins b s).responses = s.responses := rfl
@[simp] theorem drivePins_durations (b : Byte) (s : State) :
    (drivePins b s).durations = s.durations := rfl
@[simp] theorem drivePins_commands (b : Byte) (s : State) :
    (drivePins b s).commands = s.commands := rfl
@[simp] theorem drivePins_answers (b : Byte) (s : State) :
    (drivePins b s).answers = s.answers := rfl
@[simp] theorem drivePins_pauses (b : Byte) (s : State) : (drivePins b s).pauses = s.pauses := rfl

/-! ### `dropAnswer` -/

@[simp] theorem dropAnswer_bitMode (s : State) : (dropAnswer s).bitMode = s.bitMode := rfl
@[simp] theorem dropAnswer_phase (s : State) : (dropAnswer s).phase = s.phase := rfl
@[simp] theorem dropAnswer_cfg (s : State) : (dropAnswer s).cfg = s.cfg := rfl
@[simp] theorem dropAnswer_transport (s : State) : (dropAnswer s).transport = s.transport := rfl
@[simp] theorem dropAnswer_ir (s : State) : (dropAnswer s).ir = s.ir := rfl
@[simp] theorem dropAnswer_seq (s : State) : (dropAnswer s).seq = s.seq := rfl
@[simp] theorem dropAnswer_timer (s : State) : (dropAnswer s).timer = s.timer := rfl
@[simp] theorem dropAnswer_err (s : State) : (dropAnswer s).err = s.err := rfl
@[simp] theorem dropAnswer_busy (s : State) : (dropAnswer s).busy = s.busy := rfl
@[simp] theorem dropAnswer_pins (s : State) : (dropAnswer s).pins = s.pins := rfl
@[simp] theorem dropAnswer_trace (s : State) : (dropAnswer s).trace = s.trace := rfl
@[simp] theorem dropAnswer_responses (s : State) : (dropAnswer s).responses = s.responses := rfl
@[simp] theorem dropAnswer_durations (s : State) : (dropAnswer s).durations = s.durations := rfl
@[simp] theorem dropAnswer_commands (s : State) : (dropAnswer s).commands = s.commands := rfl
@[simp] theorem dropAnswer_answers (s : State) : (dropAnswer s).answers = s.answers.tail := rfl
@[simp] theorem dropAnswer_pauses (s : State) : (dropAnswer s).pauses = s.pauses := rfl

/-! ### `eventDone` -/

@[simp] theorem eventDone_bitMode (e : Event) (s : State) :
    (eventDone e s).bitMode = s.bitMode := rfl
@[simp] theorem eventDone_phase (e : Event) (s : State) : (eventDone e s).phase = s.phase := rfl
@[simp] theorem eventDone_cfg (e : Event) (s : State) : (eventDone e s).cfg = s.cfg := rfl
@[simp] theorem eventDone_transport (e : Event) (s : State) :
    (eventDone e s).transport = s.transport := rfl
@[simp] theorem eventDone_ir (e : Event) (s : State) : (eventDone e s).ir = s.ir := rfl
@[simp] theorem eventDone_seq (e : Event) (s : State) :
    (eventDone e s).seq = { s.seq with k := s.seq.k + 1 } := rfl
@[simp] theorem eventDone_timer (e : Event) (s : State) : (eventDone e s).timer = s.timer := rfl
@[simp] theorem eventDone_err (e : Event) (s : State) : (eventDone e s).err = s.err := rfl
@[simp] theorem eventDone_busy (e : Event) (s : State) : (eventDone e s).busy = s.busy := rfl
@[simp] theorem eventDone_pins (e : Event) (s : State) : (eventDone e s).pins = s.pins := rfl
@[simp] theorem eventDone_trace (e : Event) (s : State) :
    (eventDone e s).trace = s.trace ++ [e] := rfl
@[simp] theorem eventDone_responses (e : Event) (s : State) :
    (eventDone e s).responses = s.responses := rfl
@[simp] theorem eventDone_durations (e : Event) (s : State) :
    (eventDone e s).durations = s.durations := rfl
@[simp] theorem eventDone_commands (e : Event) (s : State) :
    (eventDone e s).commands = s.commands := rfl
@[simp] theorem eventDone_answers (e : Event) (s : State) :
    (eventDone e s).answers = s.answers := rfl
@[simp] theorem eventDone_pauses (e : Event) (s : State) : (eventDone e s).pauses = s.pauses := rfl

/-! ### `writeAcked` -/

@[simp] theorem writeAcked_bitMode (b : Byte) (s : State) :
    (writeAcked b s).bitMode = s.bitMode := rfl
@[simp] theorem writeAcked_phase (b : Byte) (s : State) : (writeAcked b s).phase = s.phase := rfl
@[simp] theorem writeAcked_cfg (b : Byte) (s : State) : (writeAcked b s).cfg = s.cfg := rfl
@[simp] theorem writeAcked_transport (b : Byte) (s : State) :
    (writeAcked b s).transport = s.transport := rfl
@[simp] theorem writeAcked_ir (b : Byte) (s : State) : (writeAcked b s).ir = s.ir := rfl
@[simp] theorem writeAcked_seq (b : Byte) (s : State) :
    (writeAcked b s).seq = { s.seq with k := s.seq.k + 1 } := rfl
@[simp] theorem writeAcked_timer (b : Byte) (s : State) : (writeAcked b s).timer = s.timer := rfl
@[simp] theorem writeAcked_err (b : Byte) (s : State) : (writeAcked b s).err = s.err := rfl
@[simp] theorem writeAcked_busy (b : Byte) (s : State) : (writeAcked b s).busy = s.busy := rfl
@[simp] theorem writeAcked_pins (b : Byte) (s : State) :
    (writeAcked b s).pins = Memory.write s.pins s.transport b := rfl
@[simp] theorem writeAcked_trace (b : Byte) (s : State) :
    (writeAcked b s).trace = s.trace ++ [.write b] := rfl
@[simp] theorem writeAcked_responses (b : Byte) (s : State) :
    (writeAcked b s).responses = s.responses := rfl
@[simp] theorem writeAcked_durations (b : Byte) (s : State) :
    (writeAcked b s).durations = s.durations := rfl
@[simp] theorem writeAcked_commands (b : Byte) (s : State) :
    (writeAcked b s).commands = s.commands := rfl
@[simp] theorem writeAcked_answers (b : Byte) (s : State) :
    (writeAcked b s).answers = s.answers.tail := rfl
@[simp] theorem writeAcked_pauses (b : Byte) (s : State) : (writeAcked b s).pauses = s.pauses := rfl

/-! ### `waitElapsed` -/

@[simp] theorem waitElapsed_bitMode (d : Nat) (s : State) :
    (waitElapsed d s).bitMode = s.bitMode := rfl
@[simp] theorem waitElapsed_phase (d : Nat) (s : State) : (waitElapsed d s).phase = s.phase := rfl
@[simp] theorem waitElapsed_cfg (d : Nat) (s : State) : (waitElapsed d s).cfg = s.cfg := rfl
@[simp] theorem waitElapsed_transport (d : Nat) (s : State) :
    (waitElapsed d s).transport = s.transport := rfl
@[simp] theorem waitElapsed_ir (d : Nat) (s : State) : (waitElapsed d s).ir = s.ir := rfl
@[simp] theorem waitElapsed_seq (d : Nat) (s : State) :
    (waitElapsed d s).seq = { s.seq with k := s.seq.k + 1 } := rfl
@[simp] theorem waitElapsed_timer (d : Nat) (s : State) : (waitElapsed d s).timer = 0 := rfl
@[simp] theorem waitElapsed_err (d : Nat) (s : State) : (waitElapsed d s).err = s.err := rfl
@[simp] theorem waitElapsed_busy (d : Nat) (s : State) : (waitElapsed d s).busy = s.busy := rfl
@[simp] theorem waitElapsed_pins (d : Nat) (s : State) : (waitElapsed d s).pins = s.pins := rfl
@[simp] theorem waitElapsed_trace (d : Nat) (s : State) :
    (waitElapsed d s).trace = s.trace ++ [.wait d] := rfl
@[simp] theorem waitElapsed_responses (d : Nat) (s : State) :
    (waitElapsed d s).responses = s.responses := rfl
@[simp] theorem waitElapsed_durations (d : Nat) (s : State) :
    (waitElapsed d s).durations = s.durations := rfl
@[simp] theorem waitElapsed_commands (d : Nat) (s : State) :
    (waitElapsed d s).commands = s.commands := rfl
@[simp] theorem waitElapsed_answers (d : Nat) (s : State) :
    (waitElapsed d s).answers = s.answers := rfl
@[simp] theorem waitElapsed_pauses (d : Nat) (s : State) :
    (waitElapsed d s).pauses = s.pauses := rfl

/-! ### `raise` -/

@[simp] theorem raise_bitMode (e : CmdError) (s : State) : (raise e s).bitMode = s.bitMode := rfl
@[simp] theorem raise_phase (e : CmdError) (s : State) : (raise e s).phase = s.phase := rfl
@[simp] theorem raise_cfg (e : CmdError) (s : State) : (raise e s).cfg = s.cfg := rfl
@[simp] theorem raise_transport (e : CmdError) (s : State) :
    (raise e s).transport = s.transport := rfl
@[simp] theorem raise_ir (e : CmdError) (s : State) : (raise e s).ir = s.ir := rfl
@[simp] theorem raise_seq (e : CmdError) (s : State) : (raise e s).seq = s.seq := rfl
@[simp] theorem raise_timer (e : CmdError) (s : State) : (raise e s).timer = s.timer := rfl
@[simp] theorem raise_err (e : CmdError) (s : State) : (raise e s).err = errorCode e := rfl
@[simp] theorem raise_busy (e : CmdError) (s : State) : (raise e s).busy = s.busy := rfl
@[simp] theorem raise_pins (e : CmdError) (s : State) : (raise e s).pins = s.pins := rfl
@[simp] theorem raise_trace (e : CmdError) (s : State) : (raise e s).trace = s.trace := rfl
@[simp] theorem raise_responses (e : CmdError) (s : State) :
    (raise e s).responses = s.responses ++ [.failed e] := rfl
@[simp] theorem raise_durations (e : CmdError) (s : State) :
    (raise e s).durations = s.durations := rfl
@[simp] theorem raise_commands (e : CmdError) (s : State) : (raise e s).commands = s.commands := rfl
@[simp] theorem raise_answers (e : CmdError) (s : State) : (raise e s).answers = s.answers := rfl
@[simp] theorem raise_pauses (e : CmdError) (s : State) : (raise e s).pauses = s.pauses := rfl

/-! ### `beginSlot` -/

@[simp] theorem beginSlot_bitMode (slot : Slot) (s : State) :
    (beginSlot slot s).bitMode = if slot.flip then .fourBit else s.bitMode := rfl
@[simp] theorem beginSlot_phase (slot : Slot) (s : State) :
    (beginSlot slot s).phase = s.phase := rfl
@[simp] theorem beginSlot_cfg (slot : Slot) (s : State) : (beginSlot slot s).cfg = s.cfg := rfl
@[simp] theorem beginSlot_transport (slot : Slot) (s : State) :
    (beginSlot slot s).transport = s.transport := rfl
@[simp] theorem beginSlot_ir (slot : Slot) (s : State) :
    (beginSlot slot s).ir = slot.load.getD s.ir := rfl
@[simp] theorem beginSlot_seq (slot : Slot) (s : State) : (beginSlot slot s).seq = s.seq := rfl
@[simp] theorem beginSlot_timer (slot : Slot) (s : State) :
    (beginSlot slot s).timer = timerAtStart slot.event s.timer := rfl
@[simp] theorem beginSlot_err (slot : Slot) (s : State) : (beginSlot slot s).err = s.err := rfl
@[simp] theorem beginSlot_busy (slot : Slot) (s : State) : (beginSlot slot s).busy = s.busy := rfl
@[simp] theorem beginSlot_pins (slot : Slot) (s : State) : (beginSlot slot s).pins = s.pins := rfl
@[simp] theorem beginSlot_trace (slot : Slot) (s : State) :
    (beginSlot slot s).trace = s.trace := rfl
@[simp] theorem beginSlot_responses (slot : Slot) (s : State) :
    (beginSlot slot s).responses = s.responses := rfl
@[simp] theorem beginSlot_durations (slot : Slot) (s : State) :
    (beginSlot slot s).durations = s.durations := rfl
@[simp] theorem beginSlot_commands (slot : Slot) (s : State) :
    (beginSlot slot s).commands = s.commands := rfl
@[simp] theorem beginSlot_answers (slot : Slot) (s : State) :
    (beginSlot slot s).answers = s.answers := rfl
@[simp] theorem beginSlot_pauses (slot : Slot) (s : State) :
    (beginSlot slot s).pauses = s.pauses := rfl

/-! ### `completeOp` -/

@[simp] theorem completeOp_bitMode (s : State) : (completeOp s).bitMode = s.bitMode := rfl
@[simp] theorem completeOp_phase (s : State) :
    (completeOp s).phase = if s.seq.op = .init then .ready else s.phase := rfl
@[simp] theorem completeOp_cfg (s : State) : (completeOp s).cfg = s.cfg := rfl
@[simp] theorem completeOp_transport (s : State) : (completeOp s).transport = s.transport := rfl
@[simp] theorem completeOp_ir (s : State) : (completeOp s).ir = s.ir := rfl
@[simp] theorem completeOp_seq (s : State) : (completeOp s).seq = Seq.idle := rfl
@[simp] theorem completeOp_timer (s : State) : (completeOp s).timer = s.timer := rfl
@[simp] theorem completeOp_err (s : State) : (completeOp s).err = .success := rfl
@[simp] theorem completeOp_busy (s : State) : (completeOp s).busy = false := rfl
@[simp] theorem completeOp_pins (s : State) : (completeOp s).pins = s.pins := rfl
@[simp] theorem completeOp_trace (s : State) : (completeOp s).trace = s.trace := rfl
@[simp] theorem completeOp_responses (s : State) :
    (completeOp s).responses = s.responses ++ [.done] := rfl
@[simp] theorem completeOp_durations (s : State) : (completeOp s).durations = s.durations := rfl
@[simp] theorem completeOp_commands (s : State) : (completeOp s).commands = s.commands := rfl
@[simp] theorem completeOp_answers (s : State) : (completeOp s).answers = s.answers := rfl
@[simp] theorem completeOp_pauses (s : State) : (completeOp s).pauses = s.pauses := rfl

/-! ### `construct` -/

@[simp] theorem construct_bitMode (cfg : Cfg) (t : Nat) (s : State) :
    (construct cfg t s).bitMode = .eightBit := rfl
@[simp] theorem construct_phase (cfg : Cfg) (t : Nat) (s : State) :
    (construct cfg t s).phase = if cfg.bitWidth = .eightBit then .faulted else .uninitialized := rfl
@[simp] theorem construct_cfg (cfg : Cfg) (t : Nat) (s : State) :
    (construct cfg t s).cfg = cfg := rfl
@[simp] theorem construct_transport (cfg : Cfg) (t : Nat) (s : State) :
    (construct cfg t s).transport = t := rfl
@[simp] theorem construct_ir (cfg : Cfg) (t : Nat) (s : State) :
    (construct cfg t s).ir = resetRecord := rfl
@[simp] theorem construct_seq (cfg : Cfg) (t : Nat) (s : State) :
    (construct cfg t s).seq = Seq.idle := rfl
@[simp] theorem construct_timer (cfg : Cfg) (t : Nat) (s : State) :
    (construct cfg t s).timer = 0 := rfl
@[simp] theorem construct_err (cfg : Cfg) (t : Nat) (s : State) :
    (construct cfg t s).err = if cfg.bitWidth = .eightBit then .unsupportedMode else .success := rfl
@[simp] theorem construct_busy (cfg : Cfg) (t : Nat) (s : State) :
    (construct cfg t s).busy = false := rfl
@[simp] theorem construct_pins (cfg : Cfg) (t : Nat) (s : State) :
    (construct cfg t s).pins = s.pins := rfl
@[simp] theorem construct_trace (cfg : Cfg) (t : Nat) (s : State) :
    (construct cfg t s).trace = s.trace := rfl
@[simp] theorem construct_responses (cfg : Cfg) (t : Nat) (s : State) :
    (construct cfg t s).responses = s.responses := rfl
@[simp] theorem construct_durations (cfg : Cfg) (t : Nat) (s : State) :
    (construct cfg t s).durations = s.durations := rfl
@[simp] theorem construct_commands (cfg : Cfg) (t : Nat) (s : State) :
    (construct cfg t s).commands = s.commands := rfl
@[simp] theorem construct_answers (cfg : Cfg) (t : Nat) (s : State) :
    (construct cfg t s).answers = s.answers := rfl
@[simp] theorem construct_pauses (cfg : Cfg) (t : Nat) (s : State) :
    (construct cfg t s).pauses = s.pauses := rfl

/-! ### `afterFailedWrite` -/

@[simp] theorem afterFailedWrite_bitMode (b : Byte) (taken : Bool) (s : State) :
    (afterFailedWrite b taken s).bitMode = s.bitMode := by
  cases taken <;> rfl
@[simp] theorem afterFailedWrite_phase (b : Byte) (taken : Bool) (s : State) :
    (afterFailedWrite b taken s).phase = s.phase := by
  cases taken <;> rfl
@[simp] theorem afterFailedWrite_cfg (b : Byte) (taken : Bool) (s : State) :
    (afterFailedWrite b taken s).cfg = s.cfg := by
  cases taken <;> rfl
@[simp] theorem afterFailedWrite_transport (b : Byte) (taken : Bool) (s : State) :
    (afterFailedWrite b taken s).transport = s.transport := by
  cases taken <;> rfl
@[simp] theorem afterFailedWrite_ir (b : Byte) (taken : Bool) (s : State) :
    (afterFailedWrite b taken s).ir = s.ir := by
  cases taken <;> rfl
@[simp] theorem afterFailedWrite_seq (b : Byte) (taken : Bool) (s : State) :
    (afterFailedWrite b taken s).seq = s.seq := by
  cases taken <;> rfl
@[simp] theorem afterFailedWrite_timer (b : Byte) (taken : Bool) (s : State) :
    (afterFailedWrite b taken s).timer = s.timer := by
  cases taken <;> rfl
@[simp] theorem afterFailedWrite_err (b : Byte) (taken : Bool) (s : State) :
    (afterFailedWrite b taken s).err = s.err := by
  cases taken <;> rfl
@[simp] theorem afterFailedWrite_busy (b : Byte) (taken : Bool) (s : State) :
    (afterFailedWrite b taken s).busy = s.busy := by
  cases taken <;> rfl
@[simp] theorem afterFailedWrite_pins (b : Byte) (taken : Bool) (s : State) :
    (afterFailedWrite b taken s).pins = if taken then Memory.write s.pins s.transport b else s.pins := by
  cases taken <;> rfl
@[simp] theorem afterFailedWrite_trace (b : Byte) (taken : Bool) (s : State) :
    (afterFailedWrite b taken s).trace = s.trace := by
  cases taken <;> rfl
@[simp] theorem afterFailedWrite_responses (b : Byte) (taken : Bool) (s : State) :
    (afterFailedWrite b taken s).responses = s.responses := by
  cases taken <;> rfl
@[simp] theorem afterFailedWrite_durations (b : Byte) (taken : Bool) (s : State) :
    (afterFailedWrite b taken s).durations = s.durations := by
  cases taken <;> rfl
@[simp] theorem afterFailedWrite_commands (b : Byte) (taken : Bool) (s : State) :
    (afterFailedWrite b taken s).commands = s.commands := by
  cases taken <;> rfl
@[simp] theorem afterFailedWrite_answers (b : Byte) (taken : Bool) (s : State) :
    (afterFailedWrite b taken s).answers = s.answers := by
  cases taken <;> rfl
@[simp] theorem afterFailedWrite_pauses (b : Byte) (taken : Bool) (s : State) :
    (afterFailedWrite b taken s).pauses = s.pauses := by
  cases taken <;> rfl

/-! ### `transportFailure` -/

@[simp] theorem transportFailure_bitMode (b : Byte) (taken : Bool) (report : TransportReport)
    (s : State) :
    (transportFailure b taken report s).bitMode =
      s.bitMode := by
  cases taken <;> rfl
@[simp] theorem transportFailure_phase (b : Byte) (taken : Bool) (report : TransportReport)
    (s : State) :
    (transportFailure b taken report s).phase =
      .faulted := by
  cases taken <;> rfl
@[simp] theorem transportFailure_cfg (b : Byte) (taken : Bool) (report : TransportReport)
    (s : State) :
    (transportFailure b taken report s).cfg =
      s.cfg := by
  cases taken <;> rfl
@[simp] theorem transportFailure_transport (b : Byte) (taken : Bool) (report : TransportReport)
    (s : State) :
    (transportFailure b taken report s).transport =
      s.transport := by
  cases taken <;> rfl
@[simp] theorem transportFailure_ir (b : Byte) (taken : Bool) (report : TransportReport)
    (s : State) :
    (transportFailure b taken report s).ir =
      s.ir := by
  cases taken <;> rfl
@[simp] theorem transportFailure_seq (b : Byte) (taken : Bool) (report : TransportReport)
    (s : State) :
    (transportFailure b taken report s).seq =
      Seq.idle := by
  cases taken <;> rfl
@[simp] theorem transportFailure_timer (b : Byte) (taken : Bool) (report : TransportReport)
    (s : State) :
    (transportFailure b taken report s).timer =
      0 := by
  cases taken <;> rfl
@[simp] theorem transportFailure_err (b : Byte) (taken : Bool) (report : TransportReport)
    (s : State) :
    (transportFailure b taken report s).err =
      .transportFailure := by
  cases taken <;> rfl
@[simp] theorem transportFailure_busy (b : Byte) (taken : Bool) (report : TransportReport)
    (s : State) :
    (transportFailure b taken report s).busy =
      false := by
  cases taken <;> rfl
@[simp] theorem transportFailure_pins (b : Byte) (taken : Bool) (report : TransportReport)
    (s : State) :
    (transportFailure b taken report s).pins =
      if taken then Memory.write s.pins s.transport b else s.pins := by
  cases taken <;> rfl
@[simp] theorem transportFailure_trace (b : Byte) (taken : Bool) (report : TransportReport)
    (s : State) :
    (transportFailure b taken report s).trace =
      s.trace := by
  cases taken <;> rfl
@[simp] theorem transportFailure_responses (b : Byte) (taken : Bool) (report : TransportReport)
    (s : State) :
    (transportFailure b taken report s).responses =
      s.responses ++ [.failed (.transportFailure s.seq report)] := by
  cases taken <;> rfl
@[simp] theorem transportFailure_durations (b : Byte) (taken : Bool) (report : TransportReport)
    (s : State) :
    (transportFailure b taken report s).durations =
      s.durations := by
  cases taken <;> rfl
@[simp] theorem transportFailure_commands (b : Byte) (taken : Bool) (report : TransportReport)
    (s : State) :
    (transportFailure b taken report s).commands =
      s.commands := by
  cases taken <;> rfl
@[simp] theorem transportFailure_answers (b : Byte) (taken : Bool) (report : TransportReport)
    (s : State) :
    (transportFailure b taken report s).answers =
      s.answers.tail := by
  cases taken <;> rfl
@[simp] theorem transportFailure_pauses (b : Byte) (taken : Bool) (report : TransportReport)
    (s : State) :
    (transportFailure b taken report s).pauses =
      s.pauses := by
  cases taken <;> rfl

end Sys2Proof.Machine
end

