-- ==== Sys2Proof/Laws/Memory.lean ====
section
/-! SUPPORT. The laws of the pins' list: reading back what was written, leaving the other ports alone,
and keeping the canonical form. -/

namespace Sys2Proof.Machine

theorem Memory.read_write_same (m : Memory) (t : Nat) (b : Byte) :
    Memory.read (Memory.write m t b) t = some b := by
  induction m with
  | nil => simp [Memory.write, Memory.read]
  | cons x rest ih =>
    obtain ⟨a, c⟩ := x
    by_cases h : t = a
    · simp [Memory.write, Memory.read, h]
    · by_cases h' : t < a
      · simp [Memory.write, Memory.read, h, h']
      · simp [Memory.write, Memory.read, h, h', ih]

theorem Memory.read_write_other (m : Memory) (t u : Nat) (b : Byte) (hu : u ≠ t) :
    Memory.read (Memory.write m t b) u = Memory.read m u := by
  induction m with
  | nil => simp [Memory.write, Memory.read, hu]
  | cons x rest ih =>
    obtain ⟨a, c⟩ := x
    by_cases h : t = a
    · subst h; simp [Memory.write, Memory.read, hu]
    · by_cases h' : t < a
      · simp [Memory.write, Memory.read, h, h', hu]
      · simp [Memory.write, Memory.read, h, h', ih]

/-- The second write of one port hides the first. -/
@[simp] theorem Memory.write_write (m : Memory) (t : Nat) (b c : Byte) :
    Memory.write (Memory.write m t b) t c = Memory.write m t c := by
  induction m with
  | nil => simp [Memory.write]
  | cons x rest ih =>
    obtain ⟨a, d⟩ := x
    by_cases h : t = a
    · simp [Memory.write, h]
    · by_cases h' : t < a
      · simp [Memory.write, h, h']
      · simp [Memory.write, h, h', ih]

theorem Memory.mem_write_key {m : Memory} {t : Nat} {b : Byte} {x : Host.Cell}
    (hx : x ∈ Memory.write m t b) : x.1 = t ∨ x ∈ m := by
  induction m with
  | nil => simp [Memory.write] at hx; simp [hx]
  | cons y rest ih =>
    obtain ⟨a, c⟩ := y
    simp only [Memory.write] at hx
    split at hx
    · rename_i h
      rcases List.mem_cons.mp hx with rfl | hx
      · exact .inl h.symm
      · exact .inr (List.mem_cons_of_mem _ hx)
    · split at hx
      · rcases List.mem_cons.mp hx with rfl | hx
        · exact .inl rfl
        · exact .inr hx
      · rcases List.mem_cons.mp hx with rfl | hx
        · exact .inr List.mem_cons_self
        · exact (ih hx).imp id (List.mem_cons_of_mem _)

/-- Writing keeps the canonical form. -/
theorem Memory.write_wf {m : Memory} (h : Memory.wf m) (t : Nat) (b : Byte) :
    Memory.wf (Memory.write m t b) := by
  induction m with
  | nil => simp [Memory.wf, Memory.write]
  | cons x rest ih =>
    obtain ⟨a, c⟩ := x
    have hrest := List.pairwise_cons.mp h
    simp only [Memory.write]
    split
    · exact List.pairwise_cons.mpr hrest
    · split
      · rename_i hlt
        refine List.pairwise_cons.mpr ⟨fun y hy => ?_, h⟩
        rcases List.mem_cons.mp hy with rfl | hy
        · exact hlt
        · exact lt_trans hlt (hrest.1 y hy)
      · rename_i hne hnlt
        refine List.pairwise_cons.mpr ⟨fun y hy => ?_, ih hrest.2⟩
        rcases Memory.mem_write_key hy with hy | hy
        · show a < y.1
          omega
        · exact hrest.1 y hy

/-- Driving the pins keeps the canonical form. -/
theorem drivePins_wf {s : State} (h : Memory.wf s.pins) (b : Byte) : Memory.wf (drivePins b s).pins :=
  Memory.write_wf h _ _

/-- A failed write keeps the canonical form, whether or not the byte landed. -/
theorem afterFailedWrite_wf {s : State} (h : Memory.wf s.pins) (b : Byte) (taken : Bool) :
    Memory.wf (afterFailedWrite b taken s).pins := by
  cases taken
  · exact h
  · exact drivePins_wf h b

theorem pinLevels_drivePins (b : Byte) (s : State) : pinLevels (drivePins b s) = b := by
  simp [pinLevels, Memory.read_write_same]

end Sys2Proof.Machine
end

