-- ==== Sys2Proof/Laws/Trace.lean ====
section
/-! SUPPORT. The observations of a trace, event by event, over `++`, and on the pulses of which the event
lists are made. -/

namespace Sys2Proof.Machine

/-! ### Event by event -/

@[simp] theorem writes_nil : writes [] = [] := rfl
@[simp] theorem writes_write (b : Byte) (rest : List Event) :
    writes (.write b :: rest) = b :: writes rest := rfl
@[simp] theorem writes_wait (d : Nat) (rest : List Event) : writes (.wait d :: rest) = writes rest := rfl
@[simp] theorem writes_append (xs ys : List Event) : writes (xs ++ ys) = writes xs ++ writes ys := by
  simp [writes]

@[simp] theorem writeCount_nil : writeCount [] = 0 := rfl
@[simp] theorem writeCount_write (b : Byte) (rest : List Event) :
    writeCount (.write b :: rest) = writeCount rest + 1 := rfl
@[simp] theorem writeCount_wait (d : Nat) (rest : List Event) :
    writeCount (.wait d :: rest) = writeCount rest := rfl
@[simp] theorem writeCount_append (xs ys : List Event) :
    writeCount (xs ++ ys) = writeCount xs + writeCount ys := by
  simp [writeCount]

@[simp] theorem waitTotal_nil : waitTotal [] = 0 := rfl
@[simp] theorem waitTotal_write (b : Byte) (rest : List Event) :
    waitTotal (.write b :: rest) = waitTotal rest := rfl
@[simp] theorem waitTotal_wait (d : Nat) (rest : List Event) :
    waitTotal (.wait d :: rest) = d + waitTotal rest := rfl
@[simp] theorem waitTotal_append (xs ys : List Event) :
    waitTotal (xs ++ ys) = waitTotal xs + waitTotal ys := by
  induction xs with
  | nil => simp
  | cons e xs ih => cases e <;> simp [ih, Nat.add_assoc]

/-- The second part of a list is issued after the waits of the first. -/
theorem timeline_append (t0 : Nat) (xs ys : List Event) :
    timeline t0 (xs ++ ys) = timeline t0 xs ++ timeline (t0 + waitTotal xs) ys := by
  induction xs generalizing t0 with
  | nil => rfl
  | cons e xs ih => cases e <;> simp [timeline, ih, Nat.add_assoc]

/-! ### Pulses -/

@[simp] theorem writes_pulse (T : Durations) (w : Byte) : writes (pulse T w) = [w, w ||| 0x04, w] := rfl
@[simp] theorem writeCount_pulse (T : Durations) (w : Byte) : writeCount (pulse T w) = 3 := rfl
@[simp] theorem waitTotal_pulse (T : Durations) (w : Byte) :
    waitTotal (pulse T w) = T.pweh + (T.enableCyc - T.pweh) := rfl

/-- A nibble transmission is the pulse of its byte with the backlight bit. -/
theorem nibbleTx_eq_pulse (T : Durations) (backlight : Bool) (b : Byte) :
    nibbleTx T backlight b = pulse T (b ||| backlightBits backlight) := rfl

/-- The twelve pulses of the handshake. -/
theorem writes_handshake (T : Durations) (bl lo : Byte) :
    writes (handshake T bl lo) =
      [0x30, 0x30, 0x30, 0x20, 0x20, lo, 0x00, 0x80, 0x00, 0x10, 0x00, 0x60].flatMap
        (fun b => [b ||| bl, b ||| bl ||| 0x04, b ||| bl]) := by
  simp [handshake, shakeOnce]

end Sys2Proof.Machine
end

