-- ==== Sys2Proof/Laws/Sequencer.lean ====
section
/-! SUPPORT. What the shared operations of the sequencer can do: how an event ends, what a run of events
does when every write is acknowledged, where a failed write or a pause leaves it, and the rule by which a
property is carried along a run. -/

namespace Sys2Proof.Machine

/-! ### The counter -/

theorem ticks_pos (d : Nat) : 0 < ticks d := by
  unfold ticks; omega

theorem timerClocks_eq (n timer : Nat) : timerClocks n timer = timer - n := by
  induction n generalizing timer with
  | zero => rfl
  | succ n ih => rw [timerClocks, ih, timerClock]; omega

@[simp] theorem timerAtStart_write (b : Byte) (t : Nat) : timerAtStart (.write b) t = t := rfl

theorem timerAtStart_wait_pos (d t : Nat) : 0 < timerAtStart (.wait d) t := by
  have := ticks_pos d
  simp only [timerAtStart]
  split <;> omega

/-- A counter that has been loaded is not loaded again. -/
theorem timerAtStart_twice (e : Event) (t : Nat) :
    timerAtStart e (timerAtStart e t) = timerAtStart e t := by
  cases e with
  | write b => rfl
  | wait d =>
    have hpos := timerAtStart_wait_pos d t
    generalize timerAtStart (.wait d) t = u at hpos
    simp [timerAtStart, Nat.pos_iff_ne_zero.mp hpos]

/-- Beginning an event that has already begun changes nothing. -/
theorem beginSlot_beginSlot (slot : Slot) (s : State) :
    beginSlot slot (beginSlot slot s) = beginSlot slot s := by
  ext1 <;> simp only [beginSlot_bitMode, beginSlot_phase, beginSlot_cfg, beginSlot_transport,
    beginSlot_ir, beginSlot_seq, beginSlot_timer, beginSlot_err, beginSlot_busy, beginSlot_pins,
    beginSlot_trace, beginSlot_responses, beginSlot_durations, beginSlot_commands, beginSlot_answers,
    beginSlot_pauses,
    timerAtStart_twice]
  · cases slot.flip <;> rfl
  · cases slot.load <;> rfl

/-! ### How an event ends -/

/-- Whether the answer to the event, if it is a write, is an acknowledge; a wait always elapses. -/
def eventAcked (e : Event) (s : State) : Prop :=
  match e with
  | .write _ => nextAnswer s = .ack
  | .wait _ => True

/-- The state after an event that went through. -/
def eventThrough (e : Event) (s : State) : State :=
  match e with
  | .write b => writeAcked b s
  | .wait d => waitElapsed d s

/-- An event ends in one of three ways: a wait elapses, a write is acknowledged, or it fails. -/
theorem finishSlot_cases (slot : Slot) (s : State) :
    (∃ d, slot.event = .wait d ∧ finishSlot slot s = .continues (waitElapsed d s)) ∨
    (∃ b, slot.event = .write b ∧ nextAnswer s = .ack ∧
      finishSlot slot s = .continues (writeAcked b s)) ∨
    (∃ b taken report, slot.event = .write b ∧ nextAnswer s = .fail taken report ∧
      finishSlot slot s = .aborted (transportFailure b taken report s)) := by
  cases he : slot.event with
  | wait d => exact .inl ⟨d, rfl, by simp [finishSlot, he]⟩
  | write b =>
    cases ha : nextAnswer s with
    | ack => exact .inr (.inl ⟨b, rfl, rfl, by simp [finishSlot, he, ha]⟩)
    | fail taken report =>
      exact .inr (.inr ⟨b, taken, report, rfl, rfl, by simp [finishSlot, he, ha]⟩)

theorem finishSlot_through {slot : Slot} {s : State} (h : eventAcked slot.event s) :
    finishSlot slot s = .continues (eventThrough slot.event s) := by
  cases he : slot.event with
  | wait d => simp [finishSlot, he, eventThrough]
  | write b =>
    have ha : nextAnswer s = .ack := by simpa [eventAcked, he] using h
    simp [finishSlot, he, ha, eventThrough]

@[simp] theorem nextAnswer_beginSlot (slot : Slot) (s : State) :
    nextAnswer (beginSlot slot s) = nextAnswer s := rfl

/-- The events of a list of slots. -/
def slotEvents (slots : List Slot) : List Event := slots.map (·.event)

@[simp] theorem slotEvents_nil : slotEvents [] = [] := rfl
@[simp] theorem slotEvents_cons (slot : Slot) (rest : List Slot) :
    slotEvents (slot :: rest) = slot.event :: slotEvents rest := rfl
@[simp] theorem slotEvents_append (xs ys : List Slot) :
    slotEvents (xs ++ ys) = slotEvents xs ++ slotEvents ys := List.map_append
@[simp] theorem slotEvents_plain (es : List Event) : slotEvents (es.map Slot.plain) = es := by
  simp [slotEvents, Slot.plain, Function.comp_def]

/-! ### Carrying a property along a run -/

/-- A property that beginning, ending, failing, completing and counting down keep is kept by a run. Only
the events of the run need keep it. -/
theorem runSlots_keeps (P : State → Prop) (slots : List Slot)
    (hbegin : ∀ slot ∈ slots, ∀ s, P s → P (beginSlot slot s))
    (hwait : ∀ d s, P s → P (waitElapsed d s))
    (hack : ∀ b, .write b ∈ slotEvents slots → ∀ s, P s → P (writeAcked b s))
    (hfail : ∀ b taken report s, P s → P (transportFailure b taken report s))
    (hdone : ∀ s, P s → P (completeOp s))
    (htimer : ∀ t s, P s → P { s with timer := t })
    (p : Option Pause) (s : State) (h : P s) : P (runSlots slots p s) := by
  induction slots generalizing p s with
  | nil => exact hdone s h
  | cons slot rest ih =>
    have ih := ih (fun slot hs => hbegin slot (List.mem_cons_of_mem _ hs))
      (fun b hb => hack b (List.mem_cons_of_mem _ hb))
    have hbegun := hbegin slot List.mem_cons_self s h
    have hstand : ∀ u, P u → P (standAt rest u) := by
      intro u hu
      cases rest with
      | nil => exact hdone u hu
      | cons next _ => exact hbegin next (by simp) u hu
    have hgo : ∀ q, P (match finishSlot slot (beginSlot slot s) with
        | .continues s' => runSlots rest q s'
        | .aborted s' => s') := by
      intro q
      obtain ⟨d, -, he⟩ | ⟨b, hb, -, he⟩ | ⟨b, taken, report, -, -, he⟩ :=
        finishSlot_cases slot (beginSlot slot s) <;> rw [he]
      · exact ih _ _ (hwait _ _ hbegun)
      · exact ih _ _ (hack _ (by simp [hb]) _ hbegun)
      · exact hfail _ _ _ _ hbegun
    cases p with
    | none => exact hgo none
    | some p =>
      obtain ⟨n, c⟩ := p
      cases n with
      | zero =>
        show P (passClocks c slot rest (beginSlot slot s))
        unfold passClocks
        split
        · exact hbegun
        · split
          · exact hstand _ (hwait _ _ hbegun)
          · exact htimer _ _ hbegun
      | succ n => exact hgo _

/-- What a run of events leaves alone. -/
theorem runSlots_frame (slots : List Slot) (p : Option Pause) (s : State) :
    (runSlots slots p s).cfg = s.cfg ∧ (runSlots slots p s).transport = s.transport ∧
    (runSlots slots p s).durations = s.durations ∧
    (runSlots slots p s).commands = s.commands ∧ (runSlots slots p s).pauses = s.pauses ∧
    ∀ t, t ≠ s.transport → Memory.read (runSlots slots p s).pins t = Memory.read s.pins t := by
  apply runSlots_keeps (fun u => u.cfg = s.cfg ∧ u.transport = s.transport ∧
    u.durations = s.durations ∧ u.commands = s.commands ∧ u.pauses = s.pauses ∧
    ∀ t, t ≠ s.transport → Memory.read u.pins t = Memory.read s.pins t)
  · intro slot _ u h; simpa using h
  · intro d u h; simpa using h
  · rintro b - u ⟨h1, h2, h0, h3, h4, h5⟩
    refine ⟨h1, h2, h0, h3, h4, fun t ht => ?_⟩
    rw [writeAcked_pins, Memory.read_write_other _ _ _ _ (by rw [h2]; exact ht), h5 t ht]
  · rintro b taken report u ⟨h1, h2, h0, h3, h4, h5⟩
    refine ⟨by simpa using h1, by simpa using h2, by simpa using h0, by simpa using h3, by simpa using h4,
      fun t ht => ?_⟩
    rw [transportFailure_pins]
    split
    · rw [Memory.read_write_other _ _ _ _ (by rw [h2]; exact ht), h5 t ht]
    · exact h5 t ht
  · intro u h; simpa using h
  · intro t u h; simpa using h
  · simp

/-- A run keeps the pins' list in canonical form. -/
theorem runSlots_wf (slots : List Slot) (p : Option Pause) (s : State) (h : Memory.wf s.pins) :
    Memory.wf (runSlots slots p s).pins := by
  apply runSlots_keeps (fun u => Memory.wf u.pins) (h := h)
  · intro slot _ u h; exact h
  · intro d u h; exact h
  · intro b _ u h; exact Memory.write_wf h _ _
  · intro b taken report u h
    show Memory.wf (transportFailure b taken report u).pins
    rw [transportFailure_pins]
    split
    · exact Memory.write_wf h _ _
    · exact h
  · intro u h; exact h
  · intro t u h; exact h

/-! ### A run whose writes are all acknowledged -/

/-- The state after the events of `slots`, every one of which goes through. -/
def throughSlots (slots : List Slot) (s : State) : State :=
  slots.foldl (fun u slot => eventThrough slot.event (beginSlot slot u)) s

@[simp] theorem throughSlots_nil (s : State) : throughSlots [] s = s := rfl

@[simp] theorem throughSlots_cons (slot : Slot) (rest : List Slot) (s : State) :
    throughSlots (slot :: rest) s =
      throughSlots rest (eventThrough slot.event (beginSlot slot s)) := rfl

theorem throughSlots_append (xs ys : List Slot) (s : State) :
    throughSlots (xs ++ ys) s = throughSlots ys (throughSlots xs s) :=
  List.foldl_append

theorem acked_succ {n : Nat} {s : State} (h : acked (n + 1) s) :
    nextAnswer s = .ack ∧ ∀ u : State, u.answers = s.answers.tail → acked n u := by
  unfold acked nextAnswer at *
  cases ha : s.answers with
  | nil => exact ⟨rfl, fun u hu => by simp [hu]⟩
  | cons a rest =>
    rw [ha] at h
    refine ⟨h a (by simp), fun u hu x hx => h x ?_⟩
    rw [hu] at hx
    simp at hx ⊢
    exact .inr hx

theorem acked_congr {n : Nat} {s u : State} (h : u.answers = s.answers) (hs : acked n s) :
    acked n u := by
  unfold acked at *; rwa [h]

/-- Beyond the list every write is acknowledged. -/
theorem acked_of_answers_nil {s : State} (h : s.answers = []) (n : Nat) : acked n s := by
  simp [acked, h]

/-- The run up to a point before which every write is acknowledged goes on from there. -/
theorem runSlots_append {xs : List Slot} (ys : List Slot) {s : State}
    (h : acked (writeCount (slotEvents xs)) s) :
    runSlots (xs ++ ys) none s = runSlots ys none (throughSlots xs s) := by
  induction xs generalizing s with
  | nil => rfl
  | cons slot rest ih =>
    show (match finishSlot slot (beginSlot slot s) with
      | .continues s' => runSlots (rest ++ ys) none s'
      | .aborted s' => s') = _
    cases he : slot.event with
    | wait d =>
      rw [finishSlot_through (by simp [eventAcked, he])]
      simp only [throughSlots_cons, he]
      exact ih (acked_congr (s := s) rfl (by simpa [he] using h))
    | write b =>
      simp only [slotEvents_cons, he, writeCount_write] at h
      have hs := acked_succ h
      rw [finishSlot_through (by simpa [eventAcked, he] using hs.1)]
      simp only [throughSlots_cons, he]
      exact ih (hs.2 _ rfl)

/-- A run whose writes are all acknowledged completes. -/
theorem runSlots_acked {slots : List Slot} {s : State}
    (h : acked (writeCount (slotEvents slots)) s) :
    runSlots slots none s = completeOp (throughSlots slots s) := by
  have := runSlots_append [] h
  simpa [runSlots] using this

/-- A run ends at its first failed write. -/
theorem runSlots_failed {xs : List Slot} {slot : Slot} (ys : List Slot) {s : State} {b : Byte}
    {taken : Bool} {report : TransportReport}
    (h : acked (writeCount (slotEvents xs)) s) (he : slot.event = .write b)
    (ha : nextAnswer (throughSlots xs s) = .fail taken report) :
    runSlots (xs ++ slot :: ys) none s =
      transportFailure b taken report (beginSlot slot (throughSlots xs s)) := by
  rw [runSlots_append _ h]
  show (match finishSlot slot (beginSlot slot (throughSlots xs s)) with
    | .continues s' => runSlots ys none s'
    | .aborted s' => s') = _
  simp [finishSlot, he, ha]

/-! ### What the events that went through leave -/

section Through

variable (slots : List Slot) (s : State)

@[simp] theorem throughSlots_phase : (throughSlots slots s).phase = s.phase := by
  induction slots generalizing s with
  | nil => rfl
  | cons slot rest ih => rw [throughSlots_cons, ih]; cases slot.event <;> rfl

@[simp] theorem throughSlots_cfg : (throughSlots slots s).cfg = s.cfg := by
  induction slots generalizing s with
  | nil => rfl
  | cons slot rest ih => rw [throughSlots_cons, ih]; cases slot.event <;> rfl

@[simp] theorem throughSlots_durations : (throughSlots slots s).durations = s.durations := by
  induction slots generalizing s with
  | nil => rfl
  | cons slot rest ih => rw [throughSlots_cons, ih]; cases slot.event <;> rfl

@[simp] theorem throughSlots_transport : (throughSlots slots s).transport = s.transport := by
  induction slots generalizing s with
  | nil => rfl
  | cons slot rest ih => rw [throughSlots_cons, ih]; cases slot.event <;> rfl

@[simp] theorem throughSlots_err : (throughSlots slots s).err = s.err := by
  induction slots generalizing s with
  | nil => rfl
  | cons slot rest ih => rw [throughSlots_cons, ih]; cases slot.event <;> rfl

@[simp] theorem throughSlots_busy : (throughSlots slots s).busy = s.busy := by
  induction slots generalizing s with
  | nil => rfl
  | cons slot rest ih => rw [throughSlots_cons, ih]; cases slot.event <;> rfl

@[simp] theorem throughSlots_responses : (throughSlots slots s).responses = s.responses := by
  induction slots generalizing s with
  | nil => rfl
  | cons slot rest ih => rw [throughSlots_cons, ih]; cases slot.event <;> rfl

@[simp] theorem throughSlots_commands : (throughSlots slots s).commands = s.commands := by
  induction slots generalizing s with
  | nil => rfl
  | cons slot rest ih => rw [throughSlots_cons, ih]; cases slot.event <;> rfl

@[simp] theorem throughSlots_pauses : (throughSlots slots s).pauses = s.pauses := by
  induction slots generalizing s with
  | nil => rfl
  | cons slot rest ih => rw [throughSlots_cons, ih]; cases slot.event <;> rfl

@[simp] theorem throughSlots_seq :
    (throughSlots slots s).seq = { op := s.seq.op, k := s.seq.k + slots.length } := by
  induction slots generalizing s with
  | nil => rfl
  | cons slot rest ih =>
    rw [throughSlots_cons, ih]; cases slot.event <;> simp [eventThrough] <;> omega

@[simp] theorem throughSlots_trace :
    (throughSlots slots s).trace = s.trace ++ slotEvents slots := by
  induction slots generalizing s with
  | nil => simp
  | cons slot rest ih =>
    rw [throughSlots_cons, ih]; cases he : slot.event <;> simp [eventThrough, he]

@[simp] theorem throughSlots_answers :
    (throughSlots slots s).answers = s.answers.drop (writeCount (slotEvents slots)) := by
  induction slots generalizing s with
  | nil => simp
  | cons slot rest ih =>
    rw [throughSlots_cons, ih]
    cases he : slot.event <;> simp [eventThrough, he]

/-- `ir` holds the last record latched. -/
theorem throughSlots_ir :
    (throughSlots slots s).ir = (slots.filterMap (·.load)).getLast?.getD s.ir := by
  induction slots generalizing s with
  | nil => rfl
  | cons slot rest ih =>
    have hir : (eventThrough slot.event (beginSlot slot s)).ir = slot.load.getD s.ir := by
      cases slot.event <;> rfl
    rw [throughSlots_cons, ih, hir]
    cases hl : slot.load with
    | none => simp [hl]
    | some r => simp [hl, List.getLast?_cons]

@[simp] theorem throughSlots_plain_ir (es : List Event) :
    (throughSlots (es.map Slot.plain) s).ir = s.ir := by
  induction es generalizing s with
  | nil => rfl
  | cons e es ih => rw [List.map_cons, throughSlots_cons, ih]; cases e <;> rfl

@[simp] theorem throughSlots_plain_bitMode (es : List Event) :
    (throughSlots (es.map Slot.plain) s).bitMode = s.bitMode := by
  induction es generalizing s with
  | nil => rfl
  | cons e es ih => rw [List.map_cons, throughSlots_cons, ih]; cases e <;> rfl

/-- `bit_mode` is FourBit once an event with a flip has begun. -/
theorem throughSlots_bitMode :
    (throughSlots slots s).bitMode = if slots.any (·.flip) then .fourBit else s.bitMode := by
  induction slots generalizing s with
  | nil => simp
  | cons slot rest ih =>
    have hm : (eventThrough slot.event (beginSlot slot s)).bitMode =
        if slot.flip then .fourBit else s.bitMode := by
      cases slot.event <;> rfl
    rw [throughSlots_cons, ih, hm]
    cases hf : slot.flip <;> simp [hf]

/-- The pins hold the last byte written. -/
theorem throughSlots_pins :
    (throughSlots slots s).pins =
      match (writes (slotEvents slots)).getLast? with
      | none => s.pins
      | some b => Memory.write s.pins s.transport b := by
  induction slots generalizing s with
  | nil => rfl
  | cons slot rest ih =>
    rw [throughSlots_cons, ih]
    cases he : slot.event with
    | wait d => simp [eventThrough, he, writes]
    | write b =>
      simp only [eventThrough, slotEvents_cons, he, writes, List.filterMap_cons, List.getLast?_cons,
        writeAcked_pins, writeAcked_transport, beginSlot_pins, beginSlot_transport]
      cases hw : (List.filterMap _ (slotEvents rest)).getLast? with
      | none => simp
      | some c => simp

/-- After a wait the counter is at zero. -/
theorem throughSlots_timer_wait (d : Nat) (slot : Slot) (h : slot.event = .wait d) :
    (throughSlots (slots ++ [slot]) s).timer = 0 := by
  rw [throughSlots_append]; simp [h, eventThrough]

/-- A counter at zero is at zero again after any events that went through. -/
theorem throughSlots_timer_zero (h : s.timer = 0) : (throughSlots slots s).timer = 0 := by
  induction slots generalizing s with
  | nil => exact h
  | cons slot rest ih =>
    rw [throughSlots_cons]
    apply ih
    cases he : slot.event <;> simp [eventThrough, he, h]

end Through

end Sys2Proof.Machine
end

