-- ==== Sys2Proof/Laws/Exec.lean ====
section
/-! SUPPORT. What `EXEC` can do: the gate, the constructor's error, or the run of the record's events. -/

namespace Sys2Proof.Machine

/-- Every arm of `exec` is `execBuilt` of what its constructor returns. -/
theorem exec_eq (i : Instr) (s : State) : exec i s = execBuilt (build s.durations i) s := by
  cases i <;> rfl

/-- A constructor's result is executed in one of three ways. -/
theorem execBuilt_cases (built : Except CmdError InstrRecord) (s : State) :
    (s.phase = .faulted ∧ execBuilt built s = .next (raise (.sequenceError .faulted) s)) ∨
    (s.phase ≠ .faulted ∧ ∃ e, built = .error e ∧ execBuilt built s = .next (raise e s)) ∨
    (s.phase ≠ .faulted ∧ ∃ r, built = .ok r ∧ execBuilt built s = .next (executeRecord r s)) := by
  by_cases h : s.phase = .faulted
  · exact .inl ⟨h, by simp [execBuilt, h]⟩
  · cases built with
    | error e => exact .inr (.inl ⟨h, e, rfl, by simp [execBuilt, h]⟩)
    | ok r => exact .inr (.inr ⟨h, r, rfl, by simp [execBuilt, h]⟩)

/-- The accepted state in which a record starts to run. -/
def acceptedExec (r : InstrRecord) (s : State) : State := startOp .exec { s with ir := r }

@[simp] theorem acceptedExec_bitMode (r : InstrRecord) (s : State) :
    (acceptedExec r s).bitMode = s.bitMode := rfl
@[simp] theorem acceptedExec_phase (r : InstrRecord) (s : State) :
    (acceptedExec r s).phase = s.phase := rfl
@[simp] theorem acceptedExec_cfg (r : InstrRecord) (s : State) :
    (acceptedExec r s).cfg = s.cfg := rfl
@[simp] theorem acceptedExec_transport (r : InstrRecord) (s : State) :
    (acceptedExec r s).transport = s.transport := rfl
@[simp] theorem acceptedExec_durations (r : InstrRecord) (s : State) :
    (acceptedExec r s).durations = s.durations := rfl
@[simp] theorem acceptedExec_ir (r : InstrRecord) (s : State) :
    (acceptedExec r s).ir = r := rfl
@[simp] theorem acceptedExec_seq (r : InstrRecord) (s : State) :
    (acceptedExec r s).seq = { op := .exec, k := 0 } := rfl
@[simp] theorem acceptedExec_timer (r : InstrRecord) (s : State) :
    (acceptedExec r s).timer = s.timer := rfl
@[simp] theorem acceptedExec_err (r : InstrRecord) (s : State) :
    (acceptedExec r s).err = s.err := rfl
@[simp] theorem acceptedExec_busy (r : InstrRecord) (s : State) :
    (acceptedExec r s).busy = true := rfl
@[simp] theorem acceptedExec_pins (r : InstrRecord) (s : State) :
    (acceptedExec r s).pins = s.pins := rfl
@[simp] theorem acceptedExec_trace (r : InstrRecord) (s : State) :
    (acceptedExec r s).trace = s.trace := rfl
@[simp] theorem acceptedExec_responses (r : InstrRecord) (s : State) :
    (acceptedExec r s).responses = s.responses := rfl
@[simp] theorem acceptedExec_commands (r : InstrRecord) (s : State) :
    (acceptedExec r s).commands = s.commands := rfl
@[simp] theorem acceptedExec_answers (r : InstrRecord) (s : State) :
    (acceptedExec r s).answers = s.answers := rfl
@[simp] theorem acceptedExec_pauses (r : InstrRecord) (s : State) :
    (acceptedExec r s).pauses = s.pauses := rfl

/-- The events of a record as the sequencer runs them. -/
def recordSlots (r : InstrRecord) (s : State) : List Slot :=
  (executeEvents s.durations s.bitMode s.cfg.backlight r).map Slot.plain

theorem executeRecord_eq (r : InstrRecord) (s : State) :
    executeRecord r s =
      runSlots (recordSlots r s) s.pauses.head? { acceptedExec r s with pauses := s.pauses.tail } := rfl

/-- Without a pause the accepted state is what runs. -/
theorem executeRecord_unpaused {r : InstrRecord} {s : State} (h : unpaused s) :
    executeRecord r s = runSlots (recordSlots r s) none (acceptedExec r s) := by
  have hs : { acceptedExec r s with pauses := s.pauses.tail } = acceptedExec r s := by
    ext1 <;> simp [acceptedExec, startOp, show s.pauses = [] from h]
  rw [executeRecord_eq, hs, show s.pauses = [] from h]
  rfl

@[simp] theorem slotEvents_recordSlots (r : InstrRecord) (s : State) :
    slotEvents (recordSlots r s) = executeEvents s.durations s.bitMode s.cfg.backlight r :=
  slotEvents_plain _

theorem writeCount_executeEvents (T : Durations) (mode : BitWidth) (backlight : Bool) (r : InstrRecord) :
    writeCount (executeEvents T mode backlight r) = match mode with
      | .eightBit => 3
      | .fourBit => 6 := by
  cases mode <;> rfl

/-- The last byte an instruction writes. -/
def lastByte (mode : BitWidth) (backlight : Bool) (r : InstrRecord) : Byte :=
  match mode with
  | .eightBit => hiByte r ||| backlightBits backlight
  | .fourBit => loByte r ||| backlightBits backlight

/-- A record whose writes are all acknowledged runs to its end. -/
theorem executeRecord_acked {r : InstrRecord} {s : State} (hp : unpaused s)
    (ha : acked (writesPerInstr s) s) :
    executeRecord r s =
      completed r (executeEvents s.durations s.bitMode s.cfg.backlight r)
        (lastByte s.bitMode s.cfg.backlight r) s := by
  have ha' : acked (writeCount (slotEvents (recordSlots r s))) (acceptedExec r s) := by
    rw [slotEvents_recordSlots, writeCount_executeEvents]
    refine acked_congr (s := s) rfl ?_
    cases hm : s.bitMode <;> simpa [writesPerInstr, hm] using ha
  rw [executeRecord_unpaused hp, runSlots_acked ha']
  have hir : (throughSlots (recordSlots r s) (acceptedExec r s)).ir = r := by
    rw [recordSlots, throughSlots_plain_ir]; rfl
  have hmode : (throughSlots (recordSlots r s) (acceptedExec r s)).bitMode = s.bitMode := by
    rw [recordSlots, throughSlots_plain_bitMode]; rfl
  have hsplit : recordSlots r s =
      ((match s.bitMode with
        | .eightBit => tx8 s.durations s.cfg.backlight r
        | .fourBit => tx4 s.durations s.cfg.backlight r).map Slot.plain) ++
        [Slot.plain (.wait r.completionDelay)] := by
    cases hm : s.bitMode <;> simp [recordSlots, executeEvents, hm]
  have htimer : (throughSlots (recordSlots r s) (acceptedExec r s)).timer = 0 := by
    rw [hsplit]; exact throughSlots_timer_wait _ _ r.completionDelay _ rfl
  ext1 <;> simp [completed, hir, hmode, htimer]
  · rw [throughSlots_pins, slotEvents_recordSlots]
    cases s.bitMode <;> rfl

/-- A well-formed call that can run to its end does, and leaves what its two nibble bytes give. -/
theorem exec_runsToEnd {i : Instr} {r : InstrRecord} {s : State} (hb : build s.durations i = .ok r)
    (h : runsToEnd s) : exec i s = .next (completedExec r (hiByte r) (loByte r) s) := by
  obtain ⟨hphase, hp, ha⟩ := h
  rw [exec_eq, hb, execBuilt, if_neg hphase, executeRecord_acked hp ha]
  unfold completedExec lit
  cases hm : s.bitMode <;> cases hl : s.cfg.backlight <;> rfl

end Sys2Proof.Machine
end

