-- ==== Sys2Proof/Laws/Factory.lean ====
section
/-! SUPPORT. What the range check and the constructors answer, and the port bytes of what they build. -/

namespace Sys2Proof.Machine

/-- An operand in range becomes the byte of the same value. -/
theorem checkRange_inside {x max : Int} (h0 : 0 ≤ x) (h1 : x ≤ max) :
    checkRange x max = .ok (BitVec.ofInt 8 x) := by
  have h : ¬ (x < 0 ∨ max < x) := by omega
  simp [checkRange, h]

/-- An operand out of range is rejected as it is. -/
theorem checkRange_outside {x max : Int} (h : x < 0 ∨ max < x) :
    checkRange x max = .error (.outOfRange x) := by
  simp [checkRange, h]

/-- A byte made of an integer that fits has its value. -/
theorem toNat_ofInt_byte {x : Int} (h0 : 0 ≤ x) (h1 : x ≤ 0xFF) :
    ((BitVec.ofInt 8 x).toNat : Int) = x := by
  rw [BitVec.toNat_ofInt]; simp; omega

theorem buildWriteData_inside (T : Durations) {x : Int} (h0 : 0 ≤ x) (h1 : x ≤ 0xFF) :
    buildWriteData T x = .ok (mkRecord opWriteData (BitVec.ofInt 8 x) true T.short) := by
  rw [buildWriteData, checkRange_inside h0 h1]

theorem buildWriteData_outside (T : Durations) {x : Int} (h : x < 0 ∨ 0xFF < x) :
    buildWriteData T x = .error (.outOfRange x) := by
  rw [buildWriteData, checkRange_outside h]

theorem buildSetCgramAddress_inside (T : Durations) {x : Int} (h0 : 0 ≤ x) (h1 : x ≤ 0x3F) :
    buildSetCgramAddress T x = .ok (mkRecord opSetCgramAddress (BitVec.ofInt 8 x) false T.short) := by
  rw [buildSetCgramAddress, checkRange_inside h0 h1]

theorem buildSetCgramAddress_outside (T : Durations) {x : Int} (h : x < 0 ∨ 0x3F < x) :
    buildSetCgramAddress T x = .error (.outOfRange x) := by
  rw [buildSetCgramAddress, checkRange_outside h]

theorem buildSetDdramAddress_inside (T : Durations) {x : Int} (h0 : 0 ≤ x) (h1 : x ≤ 0x7F) :
    buildSetDdramAddress T x = .ok (mkRecord opSetDdramAddress (BitVec.ofInt 8 x) false T.short) := by
  rw [buildSetDdramAddress, checkRange_inside h0 h1]

theorem buildSetDdramAddress_outside (T : Durations) {x : Int} (h : x < 0 ∨ 0x7F < x) :
    buildSetDdramAddress T x = .error (.outOfRange x) := by
  rw [buildSetDdramAddress, checkRange_outside h]

theorem buildFunctionSet_invalid (T : Durations) (w : BitWidth) :
    buildFunctionSet T w .twoLines .font10x5 = .error (.invalidConfiguration .twoLines .font10x5) := rfl

theorem buildFunctionSet_valid (T : Durations) {n : LineCount} {f : Font} (h : invalidPair n f = false)
    (w : BitWidth) :
    buildFunctionSet T w n f =
      .ok (mkRecord opFunctionSet (flagBitWidth w ||| flagLineCount n ||| flagFont f) false T.short) := by
  simp [buildFunctionSet, h]

/-- The high-nibble byte of a factory's record, whatever its delay. -/
@[simp] theorem hiByte_mkRecord (opcode parameters : Byte) (registerSelect : Bool) (delay : Nat) :
    hiByte (mkRecord opcode parameters registerSelect delay) =
      (if registerSelect then rsBit else 0x00) ||| ((opcode ||| parameters) &&& dataMask) := by
  cases registerSelect <;> simp [hiByte, controlBits, instrByte, mkRecord]

/-- The low-nibble byte of a factory's record, whatever its delay. -/
@[simp] theorem loByte_mkRecord (opcode parameters : Byte) (registerSelect : Bool) (delay : Nat) :
    loByte (mkRecord opcode parameters registerSelect delay) =
      (if registerSelect then rsBit else 0x00) ||| (((opcode ||| parameters) &&& 0x0F) <<< 4) := by
  cases registerSelect <;> simp [loByte, controlBits, instrByte, mkRecord]

end Sys2Proof.Machine
end

