-- ==== Sys2Proof/Laws/Run.lean ====
section
/-! SUPPORT. Everything a run of events can do, said once: it stands at an event, has completed, or has
ended at a failed write. -/

namespace Sys2Proof.Machine

/-- `bit_mode` once the events of `slots` have begun. -/
def modeAfter (slots : List Slot) (mode : BitWidth) : BitWidth :=
  if slots.any (·.flip) then .fourBit else mode

/-- The run paused and stands at event `j`, which has begun. -/
structure StandsAt (slots : List Slot) (s t : State) (j : Nat) (slot : Slot) : Prop where
  at_slot : slots[j]? = some slot
  seq : t.seq = { op := s.seq.op, k := s.seq.k + j }
  busy : t.busy = s.busy
  phase : t.phase = s.phase
  timer : timerFits slot.event t.timer
  mode : t.bitMode = modeAfter (slots.take (j + 1)) s.bitMode
  trace : t.trace = s.trace ++ (slotEvents slots).take j
  responses : t.responses = s.responses
  err : t.err = s.err

/-- The run completed: every event is done and the response is given. -/
structure RunsOut (slots : List Slot) (s t : State) : Prop where
  seq : t.seq = Seq.idle
  busy : t.busy = false
  timer : t.timer = 0
  phase : t.phase = if s.seq.op = .init then .ready else s.phase
  mode : t.bitMode = modeAfter slots s.bitMode
  trace : t.trace = s.trace ++ slotEvents slots
  responses : t.responses = s.responses ++ [.done]
  err : t.err = .success

/-- The run ended at event `j`, a write that failed. -/
structure FailsAt (slots : List Slot) (s t : State) (j : Nat) (b : Byte) (report : TransportReport) :
    Prop where
  at_write : (slotEvents slots)[j]? = some (.write b)
  seq : t.seq = Seq.idle
  busy : t.busy = false
  timer : t.timer = 0
  phase : t.phase = .faulted
  mode : t.bitMode = modeAfter (slots.take (j + 1)) s.bitMode
  trace : t.trace = s.trace ++ (slotEvents slots).take j
  responses : t.responses =
    s.responses ++ [.failed (.transportFailure { op := s.seq.op, k := s.seq.k + j } report)]
  err : t.err = .transportFailure

/-- One of the three. -/
def RunResult (slots : List Slot) (s t : State) : Prop :=
  (∃ j slot, StandsAt slots s t j slot) ∨ RunsOut slots s t ∨ ∃ j b report, FailsAt slots s t j b report

/-- The counter of a state that stands at the first of `slots`. -/
def timerReady (slots : List Slot) (timer : Nat) : Prop :=
  timer = 0 ∨ ∃ slot rest, slots = slot :: rest ∧ timerFits slot.event timer

theorem timerFits_begun {slots rest : List Slot} {slot : Slot} {timer : Nat}
    (hs : slots = slot :: rest) (h : timerReady slots timer) :
    timerFits slot.event (timerAtStart slot.event timer) := by
  have hpos := ticks_pos
  obtain h | ⟨slot', rest', hs', h⟩ := h
  · cases he : slot.event with
    | write b => simpa [timerFits] using h
    | wait d => simp [timerFits, timerAtStart, h, hpos]
  · obtain ⟨rfl, rfl⟩ : slot = slot' ∧ rest = rest' := by simpa using hs.symm.trans hs'
    cases he : slot.event with
    | write b => simpa [timerFits, he] using h
    | wait d =>
      rw [he] at h
      have h0 : timer ≠ 0 := Nat.pos_iff_ne_zero.mp h.1
      simpa [timerFits, timerAtStart, h0] using h

theorem modeAfter_cons (slot : Slot) (rest : List Slot) (mode : BitWidth) :
    modeAfter (slot :: rest) mode = modeAfter rest (if slot.flip then .fourBit else mode) := by
  unfold modeAfter
  cases hf : slot.flip <;> simp [hf]

/-- What the rest of a run does is what the run does, one event later. -/
theorem RunResult.cons {slot : Slot} {rest : List Slot} {s u t : State}
    (hseq : u.seq = { op := s.seq.op, k := s.seq.k + 1 }) (hbusy : u.busy = s.busy)
    (hphase : u.phase = s.phase) (hmode : u.bitMode = if slot.flip then .fourBit else s.bitMode)
    (htrace : u.trace = s.trace ++ [slot.event]) (hresp : u.responses = s.responses)
    (herr : u.err = s.err) (h : RunResult rest u t) : RunResult (slot :: rest) s t := by
  have hpos : ∀ j, u.seq.k + j = s.seq.k + (j + 1) := by intro j; rw [hseq]; simp; omega
  obtain ⟨j, at', h⟩ | h | ⟨j, b, report, h⟩ := h
  · refine .inl ⟨j + 1, at', ⟨by simpa using h.at_slot, ?_, h.busy.trans hbusy, h.phase.trans hphase,
      h.timer, ?_, ?_, h.responses.trans hresp, h.err.trans herr⟩⟩
    · rw [h.seq, hpos, hseq]
    · rw [h.mode, hmode, List.take_succ_cons, modeAfter_cons]
    · rw [h.trace, htrace]; simp
  · refine .inr (.inl ⟨h.seq, h.busy, h.timer, ?_, ?_, ?_, ?_, h.err⟩)
    · rw [h.phase, hseq, hphase]
    · rw [h.mode, hmode, modeAfter_cons]
    · rw [h.trace, htrace]; simp
    · rw [h.responses, hresp]
  · refine .inr (.inr ⟨j + 1, b, report, ⟨by simpa using h.at_write, h.seq, h.busy, h.timer, h.phase,
      ?_, ?_, ?_, h.err⟩⟩)
    · rw [h.mode, hmode, List.take_succ_cons, modeAfter_cons]
    · rw [h.trace, htrace]; simp
    · rw [h.responses, hresp, hpos, hseq]

/-- A run ends in one of the three ways. -/
theorem runSlots_result (slots : List Slot) (p : Option Pause) (s : State)
    (ht : timerReady slots s.timer) : RunResult slots s (runSlots slots p s) := by
  induction slots generalizing p s with
  | nil =>
    have h0 : s.timer = 0 := by
      obtain h | ⟨slot, rest, h, -⟩ := ht
      · exact h
      · cases h
    exact .inr (.inl ⟨rfl, rfl, h0, rfl, rfl, by simp [runSlots], rfl, rfl⟩)
  | cons slot rest ih =>
    have hfit := timerFits_begun rfl ht
    have hstand : RunResult (slot :: rest) s (beginSlot slot s) :=
      .inl ⟨0, slot, ⟨by simp, by simp, rfl, rfl, hfit, by simp [modeAfter], by simp, rfl, rfl⟩⟩
    have hnext : ∀ q, RunResult (slot :: rest) s (match finishSlot slot (beginSlot slot s) with
        | .continues s' => runSlots rest q s'
        | .aborted s' => s') := by
      intro q
      obtain ⟨d, hd, he⟩ | ⟨b, hb, -, he⟩ | ⟨b, taken, report, hb, -, he⟩ :=
        finishSlot_cases slot (beginSlot slot s) <;> rw [he]
      · exact RunResult.cons (u := waitElapsed d (beginSlot slot s)) (h := ih q _ (.inl rfl)) rfl rfl rfl
          rfl (by rw [hd]; rfl) rfl rfl
      · refine RunResult.cons (u := writeAcked b (beginSlot slot s)) (h := ih q _ (.inl ?_)) rfl rfl rfl
          rfl (by rw [hb]; rfl) rfl rfl
        simpa [hb, timerFits] using hfit
      · refine .inr (.inr ⟨0, b, report, ⟨by simp [hb], by simp, by simp, by simp, by simp, ?_, by simp,
          by simp, by simp⟩⟩)
        simp [modeAfter]
    cases p with
    | none => exact hnext none
    | some p =>
      obtain ⟨n, c⟩ := p
      cases n with
      | succ n => exact hnext _
      | zero =>
        show RunResult (slot :: rest) s (passClocks c slot rest (beginSlot slot s))
        cases he : slot.event with
        | write b => simpa [passClocks, he] using hstand
        | wait d =>
          by_cases hz : timerClocks c (beginSlot slot s).timer = 0
          · have hp : passClocks c slot rest (beginSlot slot s) =
                standAt rest (waitElapsed d (beginSlot slot s)) := by
              simp only [passClocks, he, if_pos hz]
            rw [hp]
            have hrest : RunResult rest (waitElapsed d (beginSlot slot s))
                (standAt rest (waitElapsed d (beginSlot slot s))) := by
              cases rest with
              | nil => exact .inr (.inl ⟨rfl, rfl, rfl, rfl, rfl, by simp [standAt], rfl, rfl⟩)
              | cons next more =>
                exact .inl ⟨0, next, ⟨by simp, by simp [standAt], rfl, rfl,
                  timerFits_begun (rest := more) rfl (.inl rfl), by simp [modeAfter, standAt], by simp [standAt], rfl,
                  rfl⟩⟩
            exact RunResult.cons (u := waitElapsed d (beginSlot slot s)) (h := hrest) rfl rfl rfl rfl (by rw [he]; rfl)
              rfl rfl
          · have hp : passClocks c slot rest (beginSlot slot s) =
                { beginSlot slot s with timer := timerClocks c (beginSlot slot s).timer } := by
              simp only [passClocks, he, if_neg hz]
            rw [hp]
            refine .inl ⟨0, slot, ⟨by simp, by simp, rfl, rfl, ?_, by simp [modeAfter], by simp, rfl,
              rfl⟩⟩
            rw [he] at hfit ⊢
            have hle : timerClocks c (beginSlot slot s).timer ≤ (beginSlot slot s).timer := by
              rw [timerClocks_eq]; omega
            refine ⟨Nat.pos_iff_ne_zero.mpr hz, le_trans hle ?_⟩
            simpa [he] using hfit.2

end Sys2Proof.Machine
end

