-- ==== Sys2Proof/Laws/Init.lean ====
section
/-! SUPPORT. The facts of the handshake's event list that a run of `init_lcd` needs, and the three ways
`INIT` is answered. -/

namespace Sys2Proof.Machine

/-- What each event of `init_lcd` is like: the flip comes with event 27 alone, the records latched keep
the contract of R28 and R30, and every byte has RW clear and the backlight as configured. -/
def initSlotOk (backlight : Bool) (k : Nat) (slot : Slot) : Bool :=
  slot.flip == (k == 27) &&
  (match slot.load with
    | none => true
    | some r => r.opcode &&& r.parameters == 0x00 && !r.readWrite) &&
  (match slot.event with
    | .wait _ => true
    | .write b => !b.getLsbD 1 && b.getLsbD 3 == backlight)

/-! The durations make no difference to the rest of the handshake: taken out of the slots, they leave the
same list. So what does not look at them is decided once, with the defaults. -/

/-- A record with its duration taken out. -/
def InstrRecord.timeless (r : InstrRecord) : InstrRecord := { r with completionDelay := 0 }

/-- A slot with its durations taken out. -/
def Slot.timeless (slot : Slot) : Slot :=
  { slot with
    load := slot.load.map InstrRecord.timeless
    event := match slot.event with
      | .write b => .write b
      | .wait _ => .wait 0 }

/-- A step of the script with its durations taken out. -/
def InitOp.timeless : InitOp → InitOp
  | .wait _ => .wait 0
  | .execute (.error e) => .execute (.error e)
  | .execute (.ok r) => .execute (.ok r.timeless)
  | .flip => .flip

theorem initExecute_timeless (T T' : Durations) (mode : BitWidth) (backlight flip : Bool)
    (r : InstrRecord) :
    (initExecute T mode backlight flip r).map Slot.timeless =
      (initExecute T' mode backlight flip r.timeless).map Slot.timeless := by
  cases mode <;> rfl

theorem expandScript_timeless (T T' : Durations) (backlight : Bool) (ops : List InitOp)
    (mode : BitWidth) (flip : Bool) :
    (expandScript T backlight mode flip ops).map Slot.timeless =
      (expandScript T' backlight mode flip (ops.map InitOp.timeless)).map Slot.timeless := by
  induction ops generalizing mode flip with
  | nil => rfl
  | cons op ops ih =>
    cases op with
    | wait d => simp [expandScript, InitOp.timeless, Slot.timeless, ih mode false]
    | execute built =>
      cases built with
      | error e => simpa [expandScript, InitOp.timeless] using ih mode false
      | ok r =>
        simp only [expandScript, InitOp.timeless, List.map_cons, List.map_append]
        rw [ih mode false, initExecute_timeless T T' mode backlight flip r]
    | flip => simpa [expandScript, InitOp.timeless] using ih .fourBit true

theorem initScript_timeless (T T' : Durations) (cfg : Cfg) :
    (initScript T cfg).map InitOp.timeless = (initScript T' cfg).map InitOp.timeless := by
  obtain ⟨lines, font, backlight, bitWidth⟩ := cfg
  cases lines <;> cases font <;> rfl

theorem initSlots_timeless (T T' : Durations) (cfg : Cfg) :
    (initSlots T cfg).map Slot.timeless = (initSlots T' cfg).map Slot.timeless := by
  unfold initSlots
  rw [expandScript_timeless T T', initScript_timeless T T']
  exact (expandScript_timeless T' T' _ _ _ _).symm

theorem initSlotOk_timeless (backlight : Bool) (k : Nat) (slot : Slot) :
    initSlotOk backlight k slot.timeless = initSlotOk backlight k slot := by
  obtain ⟨load, flip, event⟩ := slot
  cases load <;> cases event <;> rfl

theorem initSlots_length {T : Durations} {cfg : Cfg} (h : invalidPair cfg.lines cfg.font = false) :
    (initSlots T cfg).length = 71 := by
  have hlen := congrArg List.length (initSlots_timeless T defaultDurations cfg)
  rw [List.length_map, List.length_map] at hlen
  rw [hlen]
  obtain ⟨lines, font, backlight, bitWidth⟩ := cfg
  cases lines <;> cases font <;> cases backlight <;> cases bitWidth <;>
    first | rfl | (exact absurd h (by decide))

theorem initSlots_allOk {T : Durations} {cfg : Cfg} (h : invalidPair cfg.lines cfg.font = false) :
    ∀ k, k < 71 → ((initSlots T cfg)[k]?.map (initSlotOk cfg.backlight k)) = some true := by
  have hdefault : ∀ k, k < 71 →
      ((initSlots defaultDurations cfg)[k]?.map (initSlotOk cfg.backlight k)) = some true := by
    obtain ⟨lines, font, backlight, bitWidth⟩ := cfg
    cases lines <;> cases font <;> cases backlight <;> cases bitWidth <;>
      first | (exact absurd h (by decide)) | decide +kernel
  have htake : ∀ (T' : Durations) (k : Nat),
      (initSlots T' cfg)[k]?.map (initSlotOk cfg.backlight k) =
        ((initSlots T' cfg).map Slot.timeless)[k]?.map (initSlotOk cfg.backlight k) := by
    intro T' k
    rw [List.getElem?_map, Option.map_map]
    congr 1
    funext slot
    exact (initSlotOk_timeless _ _ slot).symm
  intro k hk
  rw [htake, initSlots_timeless T defaultDurations, ← htake]
  exact hdefault k hk

theorem initSlots_ok {T : Durations} {cfg : Cfg} (h : invalidPair cfg.lines cfg.font = false)
    {k : Nat} {slot : Slot}
    (hs : (initSlots T cfg)[k]? = some slot) : initSlotOk cfg.backlight k slot = true := by
  have hk : k < 71 := by
    rw [← initSlots_length (T := T) h]; exact (List.getElem?_eq_some_iff.mp hs).1
  have hall := initSlots_allOk (T := T) h k hk
  rw [hs] at hall
  simpa using hall

theorem initSlots_flip {T : Durations} {cfg : Cfg} (h : invalidPair cfg.lines cfg.font = false)
    {k : Nat} {slot : Slot}
    (hs : (initSlots T cfg)[k]? = some slot) : slot.flip = decide (k = 27) := by
  have hok := initSlots_ok h hs
  simp only [initSlotOk, Bool.and_eq_true] at hok
  exact eq_of_beq hok.1.1

/-- `INIT` is refused, ends for its configuration, or runs the handshake. -/
theorem execInit_cases (s : State) :
    (s.phase ≠ .uninitialized ∧ execInit s = .next (raise (.sequenceError s.phase) s)) ∨
    (s.phase = .uninitialized ∧ invalidPair s.cfg.lines s.cfg.font = true ∧
      execInit s = .next (raise (.invalidConfiguration s.cfg.lines s.cfg.font) s)) ∨
    (s.phase = .uninitialized ∧ invalidPair s.cfg.lines s.cfg.font = false ∧
      execInit s =
        .next (runOp (initSlots s.durations s.cfg) (startOp .init { s with phase := .initializing }))) := by
  by_cases hp : s.phase = .uninitialized
  · cases hv : invalidPair s.cfg.lines s.cfg.font with
    | true => exact .inr (.inl ⟨hp, rfl, by simp [execInit, hp, hv]⟩)
    | false => exact .inr (.inr ⟨hp, rfl, by simp [execInit, hp, hv]⟩)
  · exact .inl ⟨hp, by simp [execInit, hp]⟩

end Sys2Proof.Machine
end

