-- ==== Sys2Proof/Laws/Pause.lean ====
section
/-! SUPPORT. Where a pause leaves a run, and that the run goes on from there as if it had not paused. -/

namespace Sys2Proof.Machine

/-- The counter's value is of no account to a wait that is carried to its end. -/
theorem waitElapsed_of_timer (d t : Nat) (s : State) :
    waitElapsed d { s with timer := t } = waitElapsed d s := rfl

/-- Running an event that has already begun is running it. -/
theorem runSlots_begun (slot : Slot) (rest : List Slot) (s : State) :
    runSlots (slot :: rest) none (beginSlot slot s) = runSlots (slot :: rest) none s := by
  show (match finishSlot slot (beginSlot slot (beginSlot slot s)) with
    | .continues s' => runSlots rest none s'
    | .aborted s' => s') = _
  rw [beginSlot_beginSlot]
  rfl

/-- Running a wait that has begun and partly elapsed is running it. -/
theorem runSlots_counting {slot : Slot} {d : Nat} (he : slot.event = .wait d) (rest : List Slot)
    (s : State) (t : Nat) :
    runSlots (slot :: rest) none { beginSlot slot s with timer := t } =
      runSlots (slot :: rest) none s := by
  have hleft : finishSlot slot (beginSlot slot { beginSlot slot s with timer := t }) =
      finishSlot slot (beginSlot slot s) := by
    simp only [finishSlot, he]
    congr 1
    ext1 <;> simp
    · cases slot.flip <;> simp
    · cases slot.load <;> rfl
  show (match finishSlot slot (beginSlot slot { beginSlot slot s with timer := t }) with
    | .continues s' => runSlots rest none s'
    | .aborted s' => s') = _
  rw [hleft]
  rfl

/-- A run with a pause has ended as without it, or stands, still busy, at a later event, and running on
from there ends as without it. -/
theorem runSlots_paused (slots : List Slot) (p : Pause) (s : State) :
    runSlots slots (some p) s = runSlots slots none s ∨
    ∃ j, j < slots.length ∧
      (runSlots slots (some p) s).seq = { op := s.seq.op, k := s.seq.k + j } ∧
      (runSlots slots (some p) s).busy = s.busy ∧
      (runSlots slots (some p) s).responses = s.responses ∧
      (runSlots slots (some p) s).err = s.err ∧
      (runSlots slots (some p) s).phase = s.phase ∧
      runSlots (slots.drop j) none (runSlots slots (some p) s) = runSlots slots none s := by
  induction slots generalizing p s with
  | nil => exact .inl rfl
  | cons slot rest ih =>
    obtain ⟨n, c⟩ := p
    cases n with
    | zero =>
      have hp : runSlots (slot :: rest) (some ⟨0, c⟩) s = passClocks c slot rest (beginSlot slot s) := rfl
      rw [hp]
      cases he : slot.event with
      | write b =>
        have ht : passClocks c slot rest (beginSlot slot s) = beginSlot slot s := by
          simp [passClocks, he]
        rw [ht]
        exact .inr ⟨0, by simp, rfl, rfl, rfl, rfl, rfl, runSlots_begun slot rest s⟩
      | wait d =>
        have hrun : runSlots (slot :: rest) none s =
            runSlots rest none (waitElapsed d (beginSlot slot s)) := by
          show (match finishSlot slot (beginSlot slot s) with
            | .continues s' => runSlots rest none s'
            | .aborted s' => s') = _
          simp [finishSlot, he]
        by_cases hz : timerClocks c (beginSlot slot s).timer = 0
        · have ht : passClocks c slot rest (beginSlot slot s) =
              standAt rest (waitElapsed d (beginSlot slot s)) := by
            simp only [passClocks, he, if_pos hz]
          rw [ht, hrun]
          cases rest with
          | nil => exact .inl rfl
          | cons next more =>
            exact .inr ⟨1, by simp, rfl, rfl, rfl, rfl, rfl, runSlots_begun next more _⟩
        · have ht : passClocks c slot rest (beginSlot slot s) =
              { beginSlot slot s with timer := timerClocks c (beginSlot slot s).timer } := by
            simp only [passClocks, he, if_neg hz]
          rw [ht]
          exact .inr ⟨0, by simp, rfl, rfl, rfl, rfl, rfl, runSlots_counting he rest s _⟩
    | succ n =>
      have hp : runSlots (slot :: rest) (some ⟨n + 1, c⟩) s =
          (match finishSlot slot (beginSlot slot s) with
          | .continues s' => runSlots rest (some ⟨n, c⟩) s'
          | .aborted s' => s') := rfl
      have hu : runSlots (slot :: rest) none s =
          (match finishSlot slot (beginSlot slot s) with
          | .continues s' => runSlots rest none s'
          | .aborted s' => s') := rfl
      rw [hp, hu]
      obtain ⟨d, -, he⟩ | ⟨b, -, -, he⟩ | ⟨b, taken, report, -, -, he⟩ :=
        finishSlot_cases slot (beginSlot slot s) <;> rw [he]
      · obtain h | ⟨j, hj, hseq, hb, hr, herr, hph, hrun⟩ := ih ⟨n, c⟩ (waitElapsed d (beginSlot slot s))
        · exact .inl h
        · refine .inr ⟨j + 1, by simpa using hj, ?_, hb, hr, herr, hph, hrun⟩
          rw [hseq]
          show Seq.mk s.seq.op (s.seq.k + 1 + j) = Seq.mk s.seq.op (s.seq.k + (j + 1))
          congr 1; omega
      · obtain h | ⟨j, hj, hseq, hb, hr, herr, hph, hrun⟩ := ih ⟨n, c⟩ (writeAcked b (beginSlot slot s))
        · exact .inl h
        · refine .inr ⟨j + 1, by simpa using hj, ?_, hb, hr, herr, hph, hrun⟩
          rw [hseq]
          show Seq.mk s.seq.op (s.seq.k + 1 + j) = Seq.mk s.seq.op (s.seq.k + (j + 1))
          congr 1; omega
      · exact .inl rfl

end Sys2Proof.Machine
end

