-- ==== Sys2Proof/Laws/PerInstr.lean ====
section
/-! SUPPORT. Statements made once per constructor of `Instr`. -/

namespace Sys2Proof.Laws

/-! ### The family `NoReadBit`: the word of every call has RW clear (spec/30_encoding.md R30, R72) -/

/-- Bit 8 of the call's word is 0. -/
def NoReadBit.Statement (i : Instr) : Prop := (encode i).getLsbD 8 = false

/-- Whatever stands below and above it, bit 8 of a word put together by `encode` is its middle part. -/
theorem NoReadBit.of_parts (rs : BitVec 1) (ib : Byte) :
    (rs ++ (0 : BitVec 1) ++ ib : InstrWord).getLsbD 8 = false := by
  revert rs ib; decide +kernel

theorem NoReadBit.writeData (byte : Int) : NoReadBit.Statement (.writeData byte) :=
  NoReadBit.of_parts _ _

theorem NoReadBit.clearDisplay : NoReadBit.Statement .clearDisplay := NoReadBit.of_parts _ _

theorem NoReadBit.returnHome : NoReadBit.Statement .returnHome := NoReadBit.of_parts _ _

theorem NoReadBit.entryModeSet (dir : EntryDirection) (shift : EntryShift) :
    NoReadBit.Statement (.entryModeSet dir shift) := NoReadBit.of_parts _ _

theorem NoReadBit.displayOnOff (display cursor blinking : Switch) :
    NoReadBit.Statement (.displayOnOff display cursor blinking) := NoReadBit.of_parts _ _

theorem NoReadBit.cursorOrDisplayShift (target : ShiftTarget) (direction : ShiftDirection) :
    NoReadBit.Statement (.cursorOrDisplayShift target direction) := NoReadBit.of_parts _ _

theorem NoReadBit.functionSet (bitWidth : BitWidth) (lineCount : LineCount) (font : Font) :
    NoReadBit.Statement (.functionSet bitWidth lineCount font) := NoReadBit.of_parts _ _

theorem NoReadBit.setCgramAddress (addr : Int) : NoReadBit.Statement (.setCgramAddress addr) :=
  NoReadBit.of_parts _ _

theorem NoReadBit.setDdramAddress (addr : Int) : NoReadBit.Statement (.setDdramAddress addr) :=
  NoReadBit.of_parts _ _

end Sys2Proof.Laws
end

