-- ==== Sys2Proof/Laws/Step.lean ====
section
/-! SUPPORT. Everything a step can do, said once. -/

namespace Sys2Proof.Machine

/-- A step that answers a next state: an idle block without a command, a construction, an `INIT`, an
instruction, or a running operation that goes on. -/
inductive StepCase (s t : State) : Prop where
  | nothing (idle : s.busy = false) (none : s.commands = []) (same : t = s)
  | constructed (cfg : Cfg) (transport : Nat) (rest : List Command)
      (head : s.commands = .construct cfg transport :: rest)
      (result : t = construct cfg transport (abandon { s with commands := rest }))
  | init (rest : List Command) (idle : s.busy = false) (head : s.commands = .init :: rest)
      (result : execInit { s with commands := rest } = .next t)
  | instr (i : Instr) (c : Command) (rest : List Command) (idle : s.busy = false)
      (head : s.commands = c :: rest) (plain : ∀ cfg transport, c ≠ .construct cfg transport)
      (result : exec i { s with commands := rest } = .next t)
  | resumed (slots : List Slot) (busy : s.busy = true) (notReset : noConstruct s)
      (current : currentSlots s = some slots) (result : t = runOp slots s)

theorem resume_next {s t : State} (h : resume s = .next t) :
    ∃ slots, currentSlots s = some slots ∧ t = runOp slots s := by
  unfold resume at h
  cases hc : currentSlots s with
  | none => simp [hc] at h
  | some slots =>
    simp only [hc, Host.Outcome.next.injEq] at h
    exact ⟨slots, rfl, h.symm⟩

/-- A step is one of these. -/
theorem step_cases {s t : State} (h : step s = .next t) : StepCase s t := by
  have hstep : stepPort s = .next t := h
  unfold stepPort at hstep
  cases hc : s.commands with
  | nil =>
    have hno : noConstruct s := fun cfg transport rest => by simp [hc]
    cases hb : s.busy with
    | false =>
      simp only [hc, hb, Bool.false_eq_true, if_false, Host.Outcome.next.injEq] at hstep
      exact .nothing hb hc hstep.symm
    | true =>
      simp only [hc, hb, if_true] at hstep
      obtain ⟨slots, hs, ht⟩ := resume_next hstep
      exact .resumed slots hb hno hs ht
  | cons c rest =>
    simp only [hc] at hstep
    by_cases ha : accepts c s = true
    · rw [if_pos ha] at hstep
      cases c with
      | construct cfg transport =>
        simp only [serve, Host.Outcome.next.injEq] at hstep
        exact .constructed cfg transport rest hc hstep.symm
      | init => exact .init rest (by simpa [accepts] using ha) hc hstep
      | exec i =>
        exact .instr i (.exec i) rest (by simpa [accepts] using ha) hc (by simp) hstep
      | word lo hi =>
        have hw : execWord lo hi { s with commands := rest } = .next t := hstep
        unfold execWord at hw
        cases hd : decode [lo, hi] with
        | ok x =>
          obtain ⟨i, left⟩ := x
          simp only [hd] at hw
          exact .instr i (.word lo hi) rest (by simpa [accepts] using ha) hc (by simp) hw
        | error e => rw [hd] at hw; cases e <;> simp at hw
    · rw [if_neg ha] at hstep
      have hno : noConstruct s := by
        rintro cfg transport rest' hc'
        obtain ⟨rfl, -⟩ : c = .construct cfg transport ∧ rest = rest' := by
          simpa [hc] using hc'
        simp [accepts] at ha
      have hb : s.busy = true := by
        cases c with
        | construct cfg transport => exact absurd hc (hno cfg transport rest)
        | init => simpa [accepts] using ha
        | exec i => simpa [accepts] using ha
        | word lo hi => simpa [accepts] using ha
      obtain ⟨slots, hs, ht⟩ := resume_next hstep
      exact .resumed slots hb hno hs ht

/-- A reset leaves everything of the abandoned operation but the pins and the transport's answers. -/
theorem abandon_eq (s : State) :
    ∃ pins answers, abandon s = { s with pins := pins, answers := answers } ∧
      (pins = s.pins ∨ ∃ b, pendingWrite s = some b ∧ pins = Memory.write s.pins s.transport b) := by
  unfold abandon
  cases hp : pendingWrite s with
  | none => exact ⟨s.pins, s.answers, rfl, .inl rfl⟩
  | some b =>
    cases ha : nextAnswer s with
    | ack => exact ⟨_, _, rfl, .inr ⟨b, rfl, rfl⟩⟩
    | fail taken report =>
      cases taken with
      | true => exact ⟨_, _, rfl, .inr ⟨b, rfl, rfl⟩⟩
      | false => exact ⟨_, _, rfl, .inl rfl⟩

/-- A busy block that meets the invariant has an event list to go on with. -/
theorem currentSlots_of_busy {s : State} (hi : Coherent s) (hb : s.busy = true) :
    ∃ slots, currentSlots s = some slots := by
  obtain ⟨-, -, -, slots, -, h, -⟩ := hi.busy hb
  exact ⟨slots, h⟩

end Sys2Proof.Machine
end

