-- ==== Sys2Proof/Tests/Slice0.lean ====
section
/-! SUPPORT. Small tests: the well-formedness smoke test, decoding, single steps with the results of
spec/95_test_vectors.md, and one witness for the hypotheses of each statement. -/

namespace Sys2Proof.Tests

open Sys2Proof Sys2Proof.Machine

/-! ### States to start from -/

/-- The block right after construction with the configuration given. -/
def built (cfg : Cfg) : State := { State.reset with cfg := cfg }

/-- The block after `INIT` (P1's end state), its trace forgotten. -/
def ready (cfg : Cfg) : State := { built cfg with phase := .ready, bitMode := .fourBit }

def twoLines : Cfg := { lines := .twoLines, font := .font8x5, backlight := false, bitWidth := .fourBit }
def twoLinesLit : Cfg := { twoLines with backlight := true }
def tallFont : Cfg := { lines := .oneLine, font := .font10x5, backlight := false, bitWidth := .fourBit }
def invalidCfg : Cfg :=
  { lines := .twoLines, font := .font10x5, backlight := true, bitWidth := .fourBit }
def eightBitCfg : Cfg := { twoLines with bitWidth := .eightBit }

/-- The host presents one command. -/
def presenting (c : Command) (s : State) : State := { s with commands := [c] }

/-- The transport acknowledges `n` writes and fails the next. -/
def failingAfter (n : Nat) (taken : Bool) (s : State) : State :=
  { s with answers := List.replicate n .ack ++ [.fail taken .writeFailure] }

/-- The next run pauses before event `n`. -/
def pausingAt (n : Nat) (s : State) : State := { s with pauses := [{ events := n, clocks := 0 }] }

/-- What an outcome's next state shows. -/
def seen {α : Type} (f : State → α) : StepOutcome → Option α
  | .next t => some (f t)
  | .fault _ => none
  | .refused _ => none

/-- The bytes written. -/
def bytes (s : State) : List Byte := writes s.trace

/-- A block in the middle of `clear_display`, at its first write. -/
def midInstr : State :=
  { ready twoLines with
    busy := true, seq := { op := .exec, k := 0 }, ir := writeRecord 0x01 0x00 false 1600000 }

/-- The same block in the first wait of its `clear_display`. -/
def midWait : State :=
  { midInstr with seq := { op := .exec, k := 2 }, timer := 1, trace := [.write 0x00, .write 0x04] }

/-- An instantiation with durations of its own, the pulse longer than the cycle. -/
def otherDurations : Durations :=
  { powerOn := 7, init1 := 6, init2 := 5, short := 4, long := 3, pweh := 20, enableCyc := 10 }

/-- A block in the middle of `init_lcd`, at its first write. -/
def midInit : State :=
  { built twoLines with busy := true, seq := { op := .init, k := 1 }, phase := .initializing }

/-! ### Well-formedness: an ill-formed term for each check -/

theorem test_wf_write_data_above : (Instr.writeData 0x100).wellFormed = false := by decide
theorem test_wf_write_data_below : (Instr.writeData (-1)).wellFormed = false := by decide
theorem test_wf_cgram_above : (Instr.setCgramAddress 0x40).wellFormed = false := by decide
theorem test_wf_cgram_below : (Instr.setCgramAddress (-1)).wellFormed = false := by decide
theorem test_wf_ddram_above : (Instr.setDdramAddress 0x80).wellFormed = false := by decide
theorem test_wf_ddram_below : (Instr.setDdramAddress (-1)).wellFormed = false := by decide
theorem test_wf_function_set :
    (Instr.functionSet .fourBit .twoLines .font10x5).wellFormed = false ∧
    (Instr.functionSet .eightBit .twoLines .font10x5).wellFormed = false := by decide

/-! ### Decoding: words written out bit by bit, RS RW DB7 to DB0 (opcode_table.json, 95 2.2 and 2.3) -/

theorem test_decode_write_data : decodeWord 0b1010100101 = .ok (.writeData 0xA5) := by decide
theorem test_decode_clear_display : decodeWord 0b0000000001 = .ok .clearDisplay := by decide
theorem test_decode_return_home : decodeWord 0b0000000010 = .ok .returnHome := by decide
theorem test_decode_entry_mode_set :
    decodeWord 0b0000000101 = .ok (.entryModeSet .decrement .shiftOn) := by decide
theorem test_decode_display_on_off :
    decodeWord 0b0000001010 = .ok (.displayOnOff .off .on .off) := by decide
theorem test_decode_cursor_or_display_shift :
    decodeWord 0b0000011000 = .ok (.cursorOrDisplayShift .display .left) := by decide
theorem test_decode_function_set :
    decodeWord 0b0000110100 = .ok (.functionSet .eightBit .oneLine .font10x5) := by decide
theorem test_decode_set_cgram_address :
    decodeWord 0b0001010101 = .ok (.setCgramAddress 0x15) := by decide
theorem test_decode_set_ddram_address :
    decodeWord 0b0011010101 = .ok (.setDdramAddress 0x55) := by decide

/-- No word belongs to two rows of the table. -/
theorem test_rows_disjoint :
    decodeTable.Pairwise (fun a b => (a.mask &&& b.mask) &&& (a.pattern ^^^ b.pattern) ≠ 0x000) := by
  decide

/-- The words next to the rows' are no instructions (R85), reads are told apart (R87), and the bytes
must be a ten-bit word. -/
theorem test_decode_rejects :
    decodeWord 0x000 = .error .unassigned ∧ decodeWord 0x011 = .error .unassigned ∧
    decodeWord 0x021 = .error .unassigned ∧ decodeWord 0x100 = .error .readWord ∧
    decode [0x01] = .error .truncated ∧ decode [0x01, 0x04] = .error .paddingNotZero := by decide

/-- A word as the table numbers its bits: a write decodes, a read does not. -/
theorem test_decode_table_word :
    decodeTableWord 16 0x248 = some (.writeData 0x48) ∧ decodeTableWord 16 0x100 = none := by decide

/-- A word placed with `withFetchWord` is the next thing the block runs. -/
theorem test_fetch_word :
    seen bytes (step (State.reset.withFetchWord 16 0x248)) = some [0x41, 0x45, 0x41] := by
  decide +kernel

/-! ### Instructions (95_test_vectors.md 2.2 to 2.5) -/

/-- 2.4, first row: the whole trace of a data write with the backlight on. -/
theorem test_write_data_lit :
    seen (·.trace) (exec (.writeData 0x48) (ready twoLinesLit)) =
      some [.write 0x49, .write 0x4D, .wait 230, .write 0x49, .wait 270,
            .write 0x89, .write 0x8D, .wait 230, .write 0x89, .wait 270, .wait 40000] := by
  decide +kernel

/-- R10: the durations are those of the instantiation, and nothing remains of a cycle shorter than its
pulse. -/
theorem test_durations_are_parameters :
    seen (·.trace) (exec .clearDisplay { ready twoLines with durations := otherDurations }) =
      some [.write 0x00, .write 0x04, .wait 20, .write 0x00, .wait 0,
            .write 0x10, .write 0x14, .wait 20, .write 0x10, .wait 0, .wait 3] ∧
    seen (fun t => waitTotal t.trace) (execInit { built twoLines with durations := otherDurations }) =
      some (7 + 6 + 5 + 12 * 20 + 7 * 4 + 3) := by
  decide +kernel

/-- 2.5, third row: 256 is rejected and not reduced to 0. -/
theorem test_write_data_range :
    seen (fun t => (t.err, t.responses, t.trace)) (exec (.writeData 256) (ready twoLines)) =
      some (.outOfRange, [.failed (.outOfRange 256)], []) := by
  decide +kernel

/-- 2.2: the whole trace of one row, with the long delay. -/
theorem test_clear_display :
    seen (·.trace) (exec .clearDisplay (ready twoLines)) =
      some [.write 0x00, .write 0x04, .wait 230, .write 0x00, .wait 270,
            .write 0x10, .write 0x14, .wait 230, .write 0x10, .wait 270, .wait 1600000] := by
  decide +kernel

/-- 2.4, last row: before `INIT` the low nibble is not sent. -/
theorem test_clear_display_before_init :
    seen (·.trace) (exec .clearDisplay (built twoLinesLit)) =
      some [.write 0x08, .write 0x0C, .wait 230, .write 0x08, .wait 270, .wait 1600000] := by
  decide +kernel

theorem test_return_home :
    seen bytes (exec .returnHome (ready twoLines)) = some [0x00, 0x04, 0x00, 0x20, 0x24, 0x20] := by
  decide +kernel

/-- The two flags of `entry_mode_set` are not exchanged. -/
theorem test_entry_mode_set :
    seen bytes (exec (.entryModeSet .decrement .shiftOn) (ready twoLines)) =
      some [0x00, 0x04, 0x00, 0x50, 0x54, 0x50] ∧
    seen bytes (exec (.entryModeSet .increment .shiftOff) (ready twoLines)) =
      some [0x00, 0x04, 0x00, 0x60, 0x64, 0x60] := by
  decide +kernel

/-- The three flags of `display_on_off` are not exchanged. -/
theorem test_display_on_off :
    seen bytes (exec (.displayOnOff .off .on .off) (ready twoLines)) =
      some [0x00, 0x04, 0x00, 0xA0, 0xA4, 0xA0] ∧
    seen bytes (exec (.displayOnOff .off .off .on) (ready twoLines)) =
      some [0x00, 0x04, 0x00, 0x90, 0x94, 0x90] := by
  decide +kernel

theorem test_cursor_or_display_shift :
    seen bytes (exec (.cursorOrDisplayShift .display .left) (ready twoLines)) =
      some [0x10, 0x14, 0x10, 0x80, 0x84, 0x80] ∧
    seen bytes (exec (.cursorOrDisplayShift .cursor .right) (ready twoLines)) =
      some [0x10, 0x14, 0x10, 0x40, 0x44, 0x40] := by
  decide +kernel

theorem test_function_set :
    seen bytes (exec (.functionSet .fourBit .twoLines .font8x5) (ready twoLines)) =
      some [0x20, 0x24, 0x20, 0x80, 0x84, 0x80] ∧
    seen bytes (exec (.functionSet .eightBit .oneLine .font10x5) (ready twoLines)) =
      some [0x30, 0x34, 0x30, 0x40, 0x44, 0x40] := by
  decide +kernel

/-- R101: the operand `bit_width` does not touch `bit_mode`. -/
theorem test_function_set_mode :
    seen (·.bitMode) (exec (.functionSet .eightBit .oneLine .font8x5) (ready twoLines)) =
      some .fourBit := by
  decide +kernel

theorem test_set_cgram_address :
    seen bytes (exec (.setCgramAddress 0x3F) (ready twoLines)) =
      some [0x70, 0x74, 0x70, 0xF0, 0xF4, 0xF0] := by
  decide +kernel

/-- A byte in DDRAM that a one-line display does not have is still sent (R122). -/
theorem test_set_ddram_address :
    seen bytes (exec (.setDdramAddress 0x55) (ready tallFont)) =
      some [0xD0, 0xD4, 0xD0, 0x50, 0x54, 0x50] := by
  decide +kernel

/-- 2.5: the transport fails the fifth write of `write_data(0x48)`. -/
theorem test_transport_failure :
    seen (·.trace) (exec (.writeData 0x48) (failingAfter 4 false (ready twoLines))) =
      some [.write 0x41, .write 0x45, .wait 230, .write 0x41, .wait 270, .write 0x81] ∧
    seen (fun t => (t.phase, t.bitMode, t.err, Memory.read t.pins 0))
        (exec (.writeData 0x48) (failingAfter 4 false (ready twoLines))) =
      some (.faulted, .fourBit, .transportFailure, some 0x81) := by
  decide +kernel

/-! ### `INIT`, construction and the observations -/

/-- V1. -/
theorem test_init_writes :
    seen bytes (execInit (built twoLines)) =
      some [0x30, 0x34, 0x30, 0x30, 0x34, 0x30, 0x30, 0x34, 0x30, 0x20, 0x24, 0x20,
            0x20, 0x24, 0x20, 0x80, 0x84, 0x80, 0x00, 0x04, 0x00, 0x80, 0x84, 0x80,
            0x00, 0x04, 0x00, 0x10, 0x14, 0x10, 0x00, 0x04, 0x00, 0x60, 0x64, 0x60] := by
  decide +kernel

/-- P1: the end state and the sum of the waits; V4's user nibble. -/
theorem test_init_end :
    seen (fun t => (t.bitMode, t.phase, t.err, Memory.read t.pins 0, waitTotal t.trace))
        (execInit (built twoLines)) =
      some (.fourBit, .ready, .success, some 0x60, 21086000) ∧
    seen (fun t => (bytes t).extract 15 18) (execInit (built tallFont)) = some [0x40, 0x44, 0x40] := by
  decide +kernel

/-- `sampled` of V1 (2.1). -/
theorem test_init_sampled :
    seen (fun t => (sampled t.trace).map (fun x => x.2.2)) (execInit (built twoLines)) =
      some [0x3, 0x3, 0x3, 0x2, 0x2, 0x8, 0x0, 0x8, 0x0, 0x1, 0x0, 0x6] := by
  decide +kernel

/-- P6: the 14th write of `INIT` fails. -/
theorem test_init_failure :
    seen (fun t => (t.bitMode, t.phase, bytes t, Memory.read t.pins 0))
        (execInit (failingAfter 13 true (built twoLines))) =
      some (.fourBit, .faulted,
        [0x30, 0x34, 0x30, 0x30, 0x34, 0x30, 0x30, 0x34, 0x30, 0x20, 0x24, 0x20, 0x20], some 0x24) ∧
    seen (·.responses) (execInit (failingAfter 13 true (built twoLines))) =
      some [.failed (.transportFailure { op := .init, k := 28 } .writeFailure)] := by
  decide +kernel

/-- V6, and a second `INIT` (2.5). -/
theorem test_init_refused :
    seen (fun t => (t.err, t.phase, t.bitMode, t.trace)) (execInit (built invalidCfg)) =
      some (.invalidConfiguration, .uninitialized, .eightBit, []) ∧
    seen (fun t => (t.err, t.phase, t.trace)) (execInit (ready twoLines)) =
      some (.sequenceError, .ready, []) := by
  decide +kernel

/-- 2.5, fifth row: a construction for the 8-bit wire mode gives no response. -/
theorem test_construct_rejected :
    seen (fun t => (t.phase, t.bitMode, t.err, t.responses))
        (step (presenting (.construct eightBitCfg 0) (ready twoLines))) =
      some (.faulted, .eightBit, .unsupportedMode, []) := by
  decide +kernel

/-- R187: the rest wait and the completion delay are one wait of their sum. -/
theorem test_merge_waits :
    mergeWaits [.wait 270, .wait 40000, .write 0x00] = [.wait 40270, .write 0x00] := by
  decide

theorem test_timer_counts : timerClocks 3 5 = 2 ∧ timerClocks 7 5 = 0 := by decide

/-- P4: the second command's first write comes no earlier than 1600270 ns after the last edge. -/
theorem test_timeline :
    timeline 0
        (executeEvents defaultDurations .fourBit false (writeRecord 0x01 0x00 false 1600000) ++
          [.write 0x00]) =
      [(0, 0x00), (0, 0x04), (230, 0x00), (500, 0x10), (500, 0x14), (730, 0x10), (1601000, 0x00)] := by
  decide +kernel

/-! ### Witnesses: states and operands that meet the hypotheses of each statement

The statements with no hypothesis are FactoryProducesTheListedWords, FactoryAcceptsTheWellFormedCalls,
NibbleBytesBitForBit, NibbleSplitRoundTrip, EventsOfExecute, TransmitterStatesNameTheEvents,
EnablePulsesKeepTheirTiming, WordsOfTheSpecDecode, ResetRegisterValues, ResetMeetsTheInvariant and
TicksCoverTheWait. -/

theorem acked_built (n : Nat) (cfg : Cfg) : acked n (built cfg) := by
  simp [acked, built, State.reset]

theorem acked_ready (n : Nat) (cfg : Cfg) : acked n (ready cfg) := by
  simp [acked, ready, built, State.reset]

theorem runs_ready : runsToEnd (ready twoLines) := ⟨by decide, rfl, acked_ready _ _⟩

theorem runs_built : runsToEnd (built twoLines) := ⟨by decide, rfl, acked_built _ _⟩

/-- An idle block that agrees with itself meets the invariant. -/
theorem coherent_of_idle {s : State} (hm : ModeInv s) (hb : s.busy = false) (hs : s.seq = Seq.idle)
    (ht : s.timer = 0) (hp : s.phase ≠ .initializing) (hi : s.ir = resetRecord) (htr : s.trace = [])
    (hpins : s.pins = []) : Coherent s := by
  refine ⟨hm, fun _ => ⟨hs, ht, hp⟩, fun h => ?_, ?_, ?_, ?_⟩
  · rw [hb] at h; cases h
  · simp [RecordInv, hi, resetRecord]
  · simp [BytesInv, htr, writes]
  · simp [hpins, Memory.wf]

theorem coherent_built : Coherent (built twoLines) :=
  coherent_of_idle (by unfold ModeInv; decide) rfl rfl rfl (by decide) rfl rfl rfl

theorem coherent_ready : Coherent (ready twoLines) :=
  coherent_of_idle (by unfold ModeInv; decide) rfl rfl rfl (by decide) rfl rfl rfl

theorem coherent_presenting {s : State} (h : Coherent s) (c : Command) : Coherent (presenting c s) :=
  ⟨h.mode, h.idle, h.busy, h.record, h.bytes, h.pins⟩

theorem coherent_pausing {s : State} (h : Coherent s) (n : Nat) : Coherent (pausingAt n s) :=
  ⟨h.mode, h.idle, h.busy, h.record, h.bytes, h.pins⟩

theorem coherent_failing {s : State} (h : Coherent s) (n : Nat) (taken : Bool) :
    Coherent (failingAfter n taken s) :=
  ⟨h.mode, h.idle, h.busy, h.record, h.bytes, h.pins⟩

theorem coherent_midInstr : Coherent midInstr := by
  refine ⟨by unfold ModeInv; decide, ?_, fun _ => ⟨by decide, by decide, by decide, ?_⟩, ?_, ?_, ?_⟩
  · intro h; cases h
  · exact ⟨_, _, rfl, rfl, rfl⟩
  · simp [RecordInv, midInstr, writeRecord]
  · simp [BytesInv, midInstr, ready, built, State.reset, writes]
  · simp [midInstr, ready, built, State.reset, Memory.wf]

theorem coherent_midInit : Coherent midInit := by
  refine ⟨by unfold ModeInv; decide, ?_, fun _ => ⟨by decide, by decide, by decide, ?_⟩, ?_, ?_, ?_⟩
  · intro h; cases h
  · exact ⟨_, _, rfl, rfl, rfl⟩
  · simp [RecordInv, midInit, built, State.reset, resetRecord]
  · simp [BytesInv, midInit, built, State.reset, writes]
  · simp [midInit, built, State.reset, Memory.wf]

theorem noConstruct_of_nil {s : State} (h : s.commands = []) : noConstruct s := by
  simp [noConstruct, h]

/-! #### Encoding, factory, port bytes -/

theorem test_witness_EncodedCallDecodesBack :
    (Instr.writeData 0xFF).wellFormed = true ∧ (Instr.setCgramAddress 0x3F).wellFormed = true ∧
    (Instr.setDdramAddress 0x7F).wellFormed = true ∧ (Instr.writeData 0x00).wellFormed = true ∧
    (Instr.functionSet .eightBit .twoLines .font8x5).wellFormed = true := by decide

theorem test_witness_DecodedWordEncodesBack : decodeWord 0x2FF = .ok (.writeData 0xFF) := by decide

theorem test_witness_ReadWordsAreRefused :
    (0x100 : InstrWord).getLsbD 8 = true ∧ (0x3FF : InstrWord).getLsbD 8 = true ∧
    (presenting (.word 0xFF 0x03) (ready twoLines)).busy = false ∧
    (presenting (.word 0xFF 0x03) (ready twoLines)).commands = [.word 0xFF 0x03] ∧
    (0x03 : Byte) &&& 0xFC = 0x00 ∧ (0x03 : Byte).getLsbD 0 = true := by decide

/-- The lowest word without a meaning, the two of R86, and the state that presents the first. -/
theorem test_witness_UnproducedWordsAreRefused :
    (presenting (.word 0x00 0x00) (ready twoLines)).busy = false ∧
    (presenting (.word 0x00 0x00) (ready twoLines)).commands =
      [.word ((0x000 : InstrWord).setWidth 8) (((0x000 : InstrWord).extractLsb' 8 2).setWidth 8)] ∧
    (0x000 : InstrWord).getLsbD 8 = false ∧ factoryWord 0x000 = false ∧
    (0x02C : InstrWord).getLsbD 8 = false ∧ factoryWord 0x02C = false ∧
    (0x03C : InstrWord).getLsbD 8 = false ∧ factoryWord 0x03C = false := by decide

/-- The call with the long delay, one with the short, and a valid configuration. -/
theorem test_witness_DefaultDurationsAreTheListedOnes :
    build State.reset.durations .clearDisplay = .ok (writeRecord 0x01 0x00 false 1600000) ∧
    build State.reset.durations (.writeData 0x48) = .ok (writeRecord 0x00 0x48 true 40000) ∧
    invalidPair twoLines.lines twoLines.font = false := ⟨rfl, rfl, rfl⟩

/-- E3: the four boundary values of each numeric constructor. -/
theorem test_witness_NumericOperandsAreRangeChecked :
    build defaultDurations (.setCgramAddress (-1)) = .error (.outOfRange (-1)) ∧
    build defaultDurations (.setCgramAddress 0x40) = .error (.outOfRange 0x40) ∧
    build defaultDurations (.setCgramAddress 0x3F) = .ok (writeRecord 0x40 0x3F false 40000) ∧
    build defaultDurations (.setDdramAddress (-1)) = .error (.outOfRange (-1)) ∧
    build defaultDurations (.setDdramAddress 0x80) = .error (.outOfRange 0x80) ∧
    build defaultDurations (.setDdramAddress 0x7F) = .ok (writeRecord 0x80 0x7F false 40000) ∧
    build defaultDurations (.writeData (-1)) = .error (.outOfRange (-1)) ∧
    build defaultDurations (.writeData 0x100) = .error (.outOfRange 0x100) ∧
    build defaultDurations (.writeData 0xFF) = .ok (writeRecord 0x00 0xFF true 40000) := by
  refine ⟨?_, ?_, ?_, ?_, ?_, ?_, ?_, ?_, ?_⟩ <;> rfl

theorem test_witness_RecordsKeepTheirContract :
    build defaultDurations (.setDdramAddress 0x7F) = .ok (writeRecord 0x80 0x7F false 40000) ∧
    build defaultDurations (.writeData 0x00) = .ok (writeRecord 0x00 0x00 true 40000) := ⟨rfl, rfl⟩

theorem test_witness_CompletionDelayFollowsTheOpcode :
    build defaultDurations .clearDisplay = .ok (writeRecord 0x01 0x00 false 1600000) ∧
    build defaultDurations (.entryModeSet .increment .shiftOff) =
      .ok (writeRecord 0x04 0x02 false 40000) := ⟨rfl, rfl⟩

theorem test_witness_RecordWordIsTheEncoding :
    build defaultDurations (.writeData 0x48) = .ok (writeRecord 0x00 0x48 true 40000) := rfl

theorem test_witness_NibbleTransmissionWrites :
    (0xF3 : Byte).getLsbD 2 = false ∧ (0x00 : Byte).getLsbD 2 = false := by decide

theorem test_witness_DisplayIsGivenTheNibbles :
    (writeRecord 0x00 0x48 true 40000).readWrite = false := rfl

/-- Two calls that differ in the low nibble alone, 0x40 and 0x4F in CGRAM; the same record twice meets the
other side of the last clause. -/
theorem test_witness_LowNibbleIsDiscardedInEightBit :
    (writeRecord 0x40 0x00 false 40000).registerSelect =
      (writeRecord 0x40 0x0F false 40000).registerSelect ∧
    (writeRecord 0x40 0x00 false 40000).readWrite = (writeRecord 0x40 0x0F false 40000).readWrite ∧
    (writeRecord 0x40 0x00 false 40000).completionDelay =
      (writeRecord 0x40 0x0F false 40000).completionDelay ∧
    (instrByte (writeRecord 0x40 0x00 false 40000)).extractLsb' 4 4 =
      (instrByte (writeRecord 0x40 0x0F false 40000)).extractLsb' 4 4 ∧
    instrByte (writeRecord 0x40 0x00 false 40000) ≠ instrByte (writeRecord 0x40 0x0F false 40000) := by
  decide

/-! #### Instructions that run to their end, in each mode -/

theorem test_witness_ClearDisplayCompletes :
    runsToEnd (ready twoLines) ∧ runsToEnd (built twoLines) := ⟨runs_ready, runs_built⟩

theorem test_witness_ReturnHomeCompletes :
    runsToEnd (ready twoLines) ∧ runsToEnd (built twoLines) := ⟨runs_ready, runs_built⟩

theorem test_witness_EntryModeSetCompletes :
    runsToEnd (ready twoLines) ∧ runsToEnd (built twoLines) := ⟨runs_ready, runs_built⟩

theorem test_witness_DisplayOnOffCompletes :
    runsToEnd (ready twoLines) ∧ runsToEnd (built twoLines) := ⟨runs_ready, runs_built⟩

theorem test_witness_CursorOrDisplayShiftCompletes :
    runsToEnd (ready twoLines) ∧ runsToEnd (built twoLines) := ⟨runs_ready, runs_built⟩

theorem test_witness_FunctionSetCompletes :
    runsToEnd (ready twoLines) ∧ ¬ (LineCount.twoLines = .twoLines ∧ Font.font8x5 = .font10x5) ∧
    ¬ (LineCount.oneLine = .twoLines ∧ Font.font10x5 = .font10x5) := ⟨runs_ready, by decide, by decide⟩

theorem test_witness_SetCgramAddressCompletes :
    runsToEnd (ready twoLines) ∧ (0 : Int) ≤ 0 ∧ (0 : Int) ≤ 0x3F ∧ (0x3F : Int) ≤ 0x3F :=
  ⟨runs_ready, by decide, by decide, by decide⟩

theorem test_witness_SetDdramAddressCompletes :
    runsToEnd (ready twoLines) ∧ (0 : Int) ≤ 0 ∧ (0 : Int) ≤ 0x7F ∧ (0x7F : Int) ≤ 0x7F :=
  ⟨runs_ready, by decide, by decide, by decide⟩

theorem test_witness_WriteDataCompletes :
    runsToEnd (ready twoLines) ∧ (0 : Int) ≤ 0 ∧ (0 : Int) ≤ 0xFF ∧ (0xFF : Int) ≤ 0xFF :=
  ⟨runs_ready, by decide, by decide, by decide⟩

theorem test_witness_PathFollowsThePhase :
    (Coherent (ready twoLines) ∧ unpaused (ready twoLines) ∧ (ready twoLines).phase = .ready ∧
      acked 6 (ready twoLines)) ∧
    (Coherent (built twoLines) ∧ unpaused (built twoLines) ∧ (built twoLines).phase = .uninitialized ∧
      acked 3 (built twoLines)) ∧
    ∃ r, build defaultDurations .clearDisplay = .ok r :=
  ⟨⟨coherent_ready, rfl, rfl, acked_ready _ _⟩, ⟨coherent_built, rfl, rfl, acked_built _ _⟩, _, rfl⟩

/-! #### Errors -/

/-- One state for each of the four clauses. -/
theorem test_witness_PreciseErrorsChangeNothingElse :
    ((ready twoLines).phase ≠ .faulted ∧
      build defaultDurations (.writeData 256) = .error (.outOfRange 256)) ∧
    (construct eightBitCfg 0 State.reset).phase = .faulted ∧
    (ready twoLines).phase ≠ .uninitialized ∧
    ((built invalidCfg).phase = .uninitialized ∧ (built invalidCfg).cfg.lines = .twoLines ∧
      (built invalidCfg).cfg.font = .font10x5) :=
  ⟨⟨by decide, rfl⟩, rfl, by decide, rfl, rfl, rfl⟩

theorem test_witness_RejectedOperandsEndTheCommand :
    (ready twoLines).phase ≠ .faulted ∧ ((-1 : Int) < 0 ∨ (0x3F : Int) < -1) ∧
    ((0x40 : Int) < 0 ∨ (0x3F : Int) < 0x40) ∧ ((0x80 : Int) < 0 ∨ (0x7F : Int) < 0x80) ∧
    ((0x100 : Int) < 0 ∨ (0xFF : Int) < 0x100) := by decide

/-- The failing write is the first (k = 0) or the last (k = 8) of an instruction. -/
theorem test_witness_TransportFailureEndsTheInstruction :
    build defaultDurations (.writeData 0x48) = .ok (writeRecord 0x00 0x48 true 40000) ∧
    (failingAfter 5 true (ready twoLines)).phase ≠ .faulted ∧
    unpaused (failingAfter 5 true (ready twoLines)) ∧
    (executeEvents defaultDurations .fourBit false (writeRecord 0x00 0x48 true 40000))[0]? =
      some (.write 0x41) ∧
    (executeEvents defaultDurations .fourBit false (writeRecord 0x00 0x48 true 40000))[8]? =
      some (.write 0x81) ∧
    writeCount
      ((executeEvents defaultDurations .fourBit false (writeRecord 0x00 0x48 true 40000)).take 8) = 5 ∧
    acked 5 (failingAfter 5 true (ready twoLines)) ∧
    (failingAfter 5 true (ready twoLines)).answers[5]? = some (.fail true .writeFailure) ∧
    (failingAfter 0 false (ready twoLines)).answers[0]? = some (.fail false .writeFailure) :=
  ⟨rfl, by decide, rfl, rfl, rfl, rfl, by unfold acked; decide, rfl, rfl⟩

/-! #### The frame and the response -/

theorem test_witness_InstructionFrame :
    (∃ t, exec .clearDisplay (ready twoLines) = .next t ∧ t.phase = .ready) ∧
    (∃ t, exec .clearDisplay (failingAfter 0 false (ready twoLines)) = .next t ∧ t.phase = .faulted) :=
  ⟨⟨_, rfl, by decide +kernel⟩, ⟨_, rfl, by decide +kernel⟩⟩

/-- One run that ends and one that is still busy. -/
theorem test_witness_OneResponsePerInstruction :
    (ready twoLines).busy = false ∧
    (∃ t, exec .clearDisplay (ready twoLines) = .next t ∧ t.busy = false) ∧
    (∃ t, exec .clearDisplay (pausingAt 3 (ready twoLines)) = .next t ∧ t.busy = true) :=
  ⟨rfl, ⟨_, rfl, by decide +kernel⟩, ⟨_, rfl, by decide +kernel⟩⟩

theorem test_witness_EnableIsLowAfterCompletion :
    (ready twoLines).busy = false ∧
    ∃ t, exec (.writeData 0xFF) (ready twoLines) = .next t ∧
      t.responses = (ready twoLines).responses ++ [.done] :=
  ⟨rfl, _, rfl, by decide +kernel⟩

/-! #### `INIT` -/

theorem test_witness_EventsOfInit :
    invalidPair twoLines.lines twoLines.font = false ∧
    invalidPair tallFont.lines tallFont.font = false := by decide

theorem test_witness_BacklightDuringInit :
    invalidPair twoLines.lines twoLines.font = false ∧ twoLines.backlight = false ∧
    invalidPair twoLinesLit.lines twoLinesLit.font = false ∧ twoLinesLit.backlight = true := by decide

theorem test_witness_InitPulsesKeepTheirTiming :
    invalidPair tallFont.lines tallFont.font = false := by decide

theorem test_witness_InitCompletes : initRunsToEnd (built twoLines) :=
  ⟨rfl, by decide, rfl, acked_built _ _⟩

/-- Events 0, 26, 27 and 70: the ends of the list and both sides of the flip. -/
theorem test_witness_InitInProgress :
    ∀ k ∈ [0, 26, 27, 70], (pausingAt k (built twoLines)).phase = .uninitialized ∧
      (pausingAt k (built twoLines)).bitMode = .eightBit ∧
      invalidPair (pausingAt k (built twoLines)).cfg.lines (pausingAt k (built twoLines)).cfg.font = false ∧
      (pausingAt k (built twoLines)).pauses = [{ events := k, clocks := 0 }] ∧
      acked 36 (pausingAt k (built twoLines)) ∧ k < 71 := by
  unfold acked; decide

/-- The first write that fails after the flip (event 27), the last before it (event 24) and the first of
all (event 1). -/
theorem test_witness_TransportFailureEndsInit :
    ∀ x ∈ [(1, 0, (0x30 : Byte)), (24, 11, 0x20), (27, 12, 0x20)],
      (failingAfter x.2.1 true (built twoLines)).phase = .uninitialized ∧
      (failingAfter x.2.1 true (built twoLines)).bitMode = .eightBit ∧
      invalidPair twoLines.lines twoLines.font = false ∧
      (failingAfter x.2.1 true (built twoLines)).pauses = [] ∧
      (handshake defaultDurations 0x00 0x80)[x.1]? = some (.write x.2.2) ∧
      writeCount ((handshake defaultDurations 0x00 0x80).take x.1) = x.2.1 ∧
      acked x.2.1 (failingAfter x.2.1 true (built twoLines)) ∧
      (failingAfter x.2.1 true (built twoLines)).answers[x.2.1]? = some (.fail true .writeFailure) := by
  unfold acked; decide +kernel

/-! #### Reset and the step -/

theorem test_witness_ConstructSetsEveryRegister :
    (presenting (.construct twoLines 1) (ready tallFont)).busy = false ∧
    (presenting (.construct twoLines 1) (ready tallFont)).commands = [.construct twoLines 1] := by decide

theorem test_witness_RejectedConstructionIsDead :
    eightBitCfg.bitWidth = .eightBit ∧
    (presenting (.construct eightBitCfg 0) (ready twoLines)).commands = [.construct eightBitCfg 0] := by
  decide

/-- A reset in the middle of an instruction, at a write and at a wait. -/
theorem test_witness_ResetAbandonsTheOperation :
    (presenting (.construct twoLines 0) midInstr).busy = true ∧
    (presenting (.construct twoLines 0) midInstr).commands = [.construct twoLines 0] ∧
    pendingWrite (presenting (.construct twoLines 0) midInstr) = some 0x00 ∧
    (presenting (.construct twoLines 0) midWait).busy = true ∧
    (presenting (.construct twoLines 0) midWait).commands = [.construct twoLines 0] ∧
    0 < (presenting (.construct twoLines 0) midWait).timer ∧
    pendingWrite (presenting (.construct twoLines 0) midWait) = none ∧
    ∃ t, step (presenting (.construct twoLines 0) midWait) = .next t ∧ t.pins = midWait.pins :=
  ⟨rfl, rfl, rfl, rfl, rfl, by decide, rfl, _, rfl, rfl⟩

theorem test_witness_StepRunsTheNextInstruction :
    (presenting (.exec .clearDisplay) (ready twoLines)).busy = false ∧
    (presenting (.exec .clearDisplay) (ready twoLines)).commands = [.exec .clearDisplay] ∧
    (presenting (.word 0x48 0x02) (ready twoLines)).commands = [.word 0x48 0x02] ∧
    decode [0x48, 0x02] = .ok (.writeData 0x48, []) ∧
    decodeTableWord 16 0x248 = some (.writeData 0x48) ∧
    (presenting .init (built twoLines)).commands = [.init] ∧ (ready twoLines).commands = [] := by decide

theorem test_witness_BusyBlockLetsCommandsWait :
    (presenting .init midInstr).busy = true ∧ noConstruct (presenting .init midInstr) ∧
    ∃ t, step (presenting .init midInstr) = .next t :=
  ⟨rfl, by simp [noConstruct, presenting], _, rfl⟩

/-- An instruction: a pause inside it, and one beyond its end. -/
theorem test_witness_PausedRunEndsTheSame :
    (pausingAt 3 (ready twoLines)).busy = false ∧ noConstruct (pausingAt 3 (ready twoLines)) ∧
    (pausingAt 3 (ready twoLines)).pauses = [{ events := 3, clocks := 0 }] ∧
    (∃ t, exec .clearDisplay (pausingAt 3 (ready twoLines)) = .next t ∧ t.busy = true) ∧
    (∃ t, exec .clearDisplay (pausingAt 11 (ready twoLines)) = .next t ∧ t.busy = false) ∧
    ∃ u, exec .clearDisplay { pausingAt 3 (ready twoLines) with pauses := [] } = .next u :=
  ⟨rfl, noConstruct_of_nil rfl, rfl, ⟨_, rfl, by decide +kernel⟩, ⟨_, rfl, by decide +kernel⟩, _, rfl⟩

/-- `INIT`: a pause at event 27, where the mode flips, and one beyond its end. -/
theorem test_witness_PausedRunEndsTheSame_init :
    (pausingAt 27 (built twoLines)).busy = false ∧ noConstruct (pausingAt 27 (built twoLines)) ∧
    (pausingAt 27 (built twoLines)).pauses = [{ events := 27, clocks := 0 }] ∧
    (∃ t, execInit (pausingAt 27 (built twoLines)) = .next t ∧ t.busy = true) ∧
    (∃ t, execInit (pausingAt 71 (built twoLines)) = .next t ∧ t.busy = false) ∧
    ∃ u, execInit { pausingAt 27 (built twoLines) with pauses := [] } = .next u :=
  ⟨rfl, noConstruct_of_nil rfl, rfl, ⟨_, rfl, by decide +kernel⟩, ⟨_, rfl, by decide +kernel⟩, _, rfl⟩

/-- A busy block: a second pause inside the operation, and one beyond its end. -/
theorem test_witness_PausedRunEndsTheSame_resumed :
    (pausingAt 7 midInit).busy = true ∧ noConstruct (pausingAt 7 midInit) ∧
    (pausingAt 7 midInit).pauses = [{ events := 7, clocks := 0 }] ∧
    (∃ t, step (pausingAt 7 midInit) = .next t ∧ t.busy = true) ∧
    (∃ t, step (pausingAt 70 midInit) = .next t ∧ t.busy = false) ∧
    ∃ u, step { pausingAt 7 midInit with pauses := [] } = .next u :=
  ⟨rfl, noConstruct_of_nil rfl, rfl, ⟨_, rfl, by decide +kernel⟩, ⟨_, rfl, by decide +kernel⟩, _, rfl⟩

/-! #### The invariant and the whole-machine rules -/

theorem test_witness_StepKeepsTheInvariant :
    (Coherent midInit ∧ ∃ t, step midInit = .next t) ∧ (Coherent midInstr ∧ ∃ t, step midInstr = .next t) :=
  ⟨⟨coherent_midInit, _, rfl⟩, ⟨coherent_midInstr, _, rfl⟩⟩

theorem test_witness_NoStepFaults : Coherent midInit ∧ Coherent midInstr ∧ Coherent (built twoLines) :=
  ⟨coherent_midInit, coherent_midInstr, coherent_built⟩

/-- By construction, by an `INIT` that starts, and by one that goes on. -/
theorem test_witness_BitModeChangesOnlyInInit :
    (Coherent (presenting (.construct twoLines 0) (ready twoLines)) ∧
      ∃ t, step (presenting (.construct twoLines 0) (ready twoLines)) = .next t ∧ t.bitMode ≠ .fourBit) ∧
    (Coherent (presenting .init (built twoLines)) ∧
      ∃ t, step (presenting .init (built twoLines)) = .next t ∧ t.bitMode ≠ .eightBit) ∧
    (Coherent midInit ∧ ∃ t, step midInit = .next t ∧ t.bitMode ≠ .eightBit) :=
  ⟨⟨coherent_presenting coherent_ready _, _, rfl, by decide +kernel⟩,
    ⟨coherent_presenting coherent_built _, _, rfl, by decide +kernel⟩,
    ⟨coherent_midInit, _, rfl, by decide +kernel⟩⟩

/-- The phase stays, fails, becomes Ready, and becomes Initializing. -/
theorem test_witness_PhaseFollowsTheLifecycle :
    (Coherent midInstr ∧ noConstruct midInstr ∧ ∃ t, step midInstr = .next t ∧ t.phase = .ready) ∧
    (Coherent (failingAfter 0 false midInit) ∧ noConstruct (failingAfter 0 false midInit) ∧
      ∃ t, step (failingAfter 0 false midInit) = .next t ∧ t.phase = .faulted) ∧
    (Coherent midInit ∧ noConstruct midInit ∧ ∃ t, step midInit = .next t ∧ t.phase = .ready) ∧
    (Coherent (pausingAt 1 (presenting .init (built twoLines))) ∧
      noConstruct (pausingAt 1 (presenting .init (built twoLines))) ∧
      ∃ t, step (pausingAt 1 (presenting .init (built twoLines))) = .next t ∧ t.phase = .initializing) :=
  ⟨⟨coherent_midInstr, noConstruct_of_nil rfl, _, rfl, by decide +kernel⟩,
    ⟨coherent_failing coherent_midInit _ _, noConstruct_of_nil rfl, _, rfl, by decide +kernel⟩,
    ⟨coherent_midInit, noConstruct_of_nil rfl, _, rfl, by decide +kernel⟩,
    ⟨coherent_pausing (coherent_presenting coherent_built _) _,
      by simp [noConstruct, presenting, pausingAt], _, rfl, by decide +kernel⟩⟩

/-- A step that goes on with `INIT`, and a construction, which keeps the durations too. -/
theorem test_witness_ConfigurationIsFixed :
    (noConstruct midInit ∧ ∃ t, step midInit = .next t) ∧
    ∃ t, step (presenting (.construct tallFont 1) midInit) = .next t ∧ t.durations = midInit.durations :=
  ⟨⟨noConstruct_of_nil rfl, _, rfl⟩, _, rfl, rfl⟩

theorem test_witness_EveryByteWrittenIsLegal :
    Coherent midInit ∧ ∃ t, step midInit = .next t ∧ writes t.trace ≠ [] :=
  ⟨coherent_midInit, _, rfl, by decide +kernel⟩

/-- A second `INIT` leaves the specified behaviour, and the mark is there afterwards. -/
theorem test_witness_ResponsesAreNeverTakenBack :
    (∃ t, step (presenting .init (ready twoLines)) = .next t ∧ leftSpecification t = true) ∧
    leftSpecification { ready twoLines with responses := [.failed (.sequenceError .ready)] } = true ∧
    ∃ t, step { ready twoLines with responses := [.failed (.sequenceError .ready)] } = .next t :=
  ⟨⟨_, rfl, by decide +kernel⟩, by decide, _, rfl⟩

/-- The first clause at no clock, the second at exactly the wait's clocks. -/
theorem test_witness_TimerCountsTheWaitDown :
    (∃ r, build (ready twoLines).durations .clearDisplay = .ok r) ∧ (ready twoLines).phase ≠ .faulted ∧
    (ready twoLines).timer = 0 ∧
    (pausingAt 2 (ready twoLines)).pauses = [{ events := 2, clocks := 0 }] ∧
    acked 2 (pausingAt 2 (ready twoLines)) ∧ 0 < ticks (ready twoLines).durations.pweh ∧
    ({ ready twoLines with pauses := [{ events := 2, clocks := ticks 230 }] } : State).pauses =
      [{ events := 2, clocks := ticks 230 }] ∧
    ticks (ready twoLines).durations.pweh ≤ ticks 230 :=
  ⟨⟨_, rfl⟩, by decide, rfl, rfl, acked_ready 2 twoLines, ticks_pos _, rfl, le_refl _⟩

theorem test_witness_OperandPortPresentsTheBoundaries :
    (10 : Nat) ≤ 10 ∧ (-1 : Int) ≤ -1 ∧ (-1 : Int) ≤ 256 ∧ (256 : Int) ≤ 256 := by decide

end Sys2Proof.Tests
end

/-! The statements of spec/00_scope.md: what an operand field presents (R11), and what the default durations
(R10) amount to. The lemmas before them speak of any durations. -/

namespace Sys2Proof.Machine

/-! ### What the constructors return -/

theorem buildWriteData_eq_ok_iff {T : Durations} {x : Int} {r : InstrRecord} :
    buildWriteData T x = .ok r ↔
      (0 ≤ x ∧ x ≤ 0xFF) ∧ mkRecord opWriteData (BitVec.ofInt 8 x) true T.short = r := by
  by_cases hx : 0 ≤ x ∧ x ≤ 0xFF
  · simp [buildWriteData_inside T hx.1 hx.2, hx]
  · simp only [buildWriteData_outside T (show x < 0 ∨ 0xFF < x by omega), hx, false_and, reduceCtorEq]

theorem buildSetCgramAddress_eq_ok_iff {T : Durations} {x : Int} {r : InstrRecord} :
    buildSetCgramAddress T x = .ok r ↔
      (0 ≤ x ∧ x ≤ 0x3F) ∧ mkRecord opSetCgramAddress (BitVec.ofInt 8 x) false T.short = r := by
  by_cases hx : 0 ≤ x ∧ x ≤ 0x3F
  · simp [buildSetCgramAddress_inside T hx.1 hx.2, hx]
  · simp only [buildSetCgramAddress_outside T (show x < 0 ∨ 0x3F < x by omega), hx, false_and,
      reduceCtorEq]

theorem buildSetDdramAddress_eq_ok_iff {T : Durations} {x : Int} {r : InstrRecord} :
    buildSetDdramAddress T x = .ok r ↔
      (0 ≤ x ∧ x ≤ 0x7F) ∧ mkRecord opSetDdramAddress (BitVec.ofInt 8 x) false T.short = r := by
  by_cases hx : 0 ≤ x ∧ x ≤ 0x7F
  · simp [buildSetDdramAddress_inside T hx.1 hx.2, hx]
  · simp only [buildSetDdramAddress_outside T (show x < 0 ∨ 0x7F < x by omega), hx, false_and,
      reduceCtorEq]

theorem buildFunctionSet_eq_ok_iff {T : Durations} {w : BitWidth} {n : LineCount} {f : Font}
    {r : InstrRecord} :
    buildFunctionSet T w n f = .ok r ↔
      invalidPair n f = false ∧
        mkRecord opFunctionSet (flagBitWidth w ||| flagLineCount n ||| flagFont f) false T.short = r := by
  cases hv : invalidPair n f with
  | true => simp [buildFunctionSet, hv]
  | false => simp [buildFunctionSet_valid T hv]

@[simp] theorem completionDelay_mkRecord (opcode parameters : Byte) (registerSelect : Bool)
    (delay : Nat) : (mkRecord opcode parameters registerSelect delay).completionDelay = delay := rfl

/-- The delay of a record the factory returns (R81). -/
theorem completionDelay_of_build {T : Durations} {i : Instr} {r : InstrRecord} (h : build T i = .ok r) :
    r.completionDelay = if i = .clearDisplay ∨ i = .returnHome then T.long else T.short := by
  cases i with
  | clearDisplay | returnHome | entryModeSet _ _ | displayOnOff _ _ _ | cursorOrDisplayShift _ _ =>
    cases h; rfl
  | writeData x => obtain ⟨-, rfl⟩ := buildWriteData_eq_ok_iff.mp h; rfl
  | setCgramAddress x => obtain ⟨-, rfl⟩ := buildSetCgramAddress_eq_ok_iff.mp h; rfl
  | setDdramAddress x => obtain ⟨-, rfl⟩ := buildSetDdramAddress_eq_ok_iff.mp h; rfl
  | functionSet w n f => obtain ⟨-, rfl⟩ := buildFunctionSet_eq_ok_iff.mp h; rfl

/-! ### What an operand field presents -/

/-- A field presents every integer its two's complement holds. -/
theorem operandOfPort_ofInt {w : Nat} {x : Int} (hw : 0 < w) (hlo : -2 ^ (w - 1) ≤ x)
    (hhi : x < 2 ^ (w - 1)) : operandOfPort (BitVec.ofInt w x) = x :=
  BitVec.toInt_ofInt_eq_self hw hlo hhi

/-- Nothing above its two's complement stands in a field. -/
theorem operandOfPort_lt {w : Nat} (bits : BitVec w) : operandOfPort bits < 2 ^ (w - 1) :=
  BitVec.toInt_lt

/-- Ten bits hold both boundary values of `write_data`, and every wider field does. -/
theorem operandOfPort_ofInt_boundaries {w : Nat} {x : Int} (hw : 10 ≤ w) (hlo : -1 ≤ x)
    (hhi : x ≤ 256) : operandOfPort (BitVec.ofInt w x) = x := by
  have hpow : (2 : Int) ^ 9 ≤ 2 ^ (w - 1) := pow_le_pow_right₀ (by decide) (by omega)
  exact operandOfPort_ofInt (by omega) (by omega) (by omega)

/-- Settles O59: two's complement of ten bits reaches from -512 to 511, of nine bits from -256 to 255, and
`write_data` builds exactly for the operands in its range. -/
theorem operandPortPresentsTheBoundaries : Obligations.OperandPortPresentsTheBoundaries := by
  unfold Obligations.OperandPortPresentsTheBoundaries
  refine ⟨?tenBitsPresent, ?nineBitsPresentMinusOne, ?nineBitsEndBelow256, ?outOfRangeIsFound⟩
  case tenBitsPresent =>
    intro w x hw hlo hhi
    exact ⟨BitVec.ofInt w x, operandOfPort_ofInt_boundaries hw hlo hhi⟩
  case nineBitsPresentMinusOne =>
    exact ⟨BitVec.ofInt 9 (-1), operandOfPort_ofInt (by decide) (by decide) (by decide)⟩
  case nineBitsEndBelow256 =>
    intro bits
    exact (operandOfPort_lt bits).ne
  case outOfRangeIsFound =>
    intro T w bits
    simp [build, buildWriteData_eq_ok_iff]

/-! ### The waits of an instruction and of the handshake -/

@[simp] theorem waitTotal_executeEvents_eightBit (T : Durations) (backlight : Bool) (r : InstrRecord) :
    waitTotal (executeEvents T .eightBit backlight r) =
      T.pweh + (T.enableCyc - T.pweh) + r.completionDelay := by
  simp [executeEvents, tx8, nibbleTx_eq_pulse]

@[simp] theorem waitTotal_executeEvents_fourBit (T : Durations) (backlight : Bool) (r : InstrRecord) :
    waitTotal (executeEvents T .fourBit backlight r) =
      2 * (T.pweh + (T.enableCyc - T.pweh)) + r.completionDelay := by
  simp only [executeEvents, tx4, nibbleTx_eq_pulse, waitTotal_append, waitTotal_pulse, waitTotal_wait,
    waitTotal_nil]
  omega

/-- Inside the handshake an `execute` has the events it has anywhere (R131). -/
@[simp] theorem map_event_initExecute (T : Durations) (mode : BitWidth) (backlight flip : Bool)
    (r : InstrRecord) :
    (initExecute T mode backlight flip r).map (·.event) = executeEvents T mode backlight r := by
  cases mode <;> rfl

/-- The least time of `init_lcd` under a valid configuration, the sum over its script (R170). -/
theorem waitTotal_initEvents (T : Durations) {cfg : Cfg}
    (h : invalidPair cfg.lines cfg.font = false) :
    waitTotal (initEvents T cfg) =
      T.powerOn + T.init1 + T.init2 + 12 * (T.pweh + (T.enableCyc - T.pweh)) + 7 * T.short + T.long := by
  have hshake : invalidPair .oneLine .font8x5 = false := rfl
  simp only [initEvents, initSlots, initScript, expandScript, buildFunctionSet_valid T hshake,
    buildFunctionSet_valid T h, buildDisplayOnOff, buildClearDisplay, buildEntryModeSet,
    List.map_append, List.map_cons, List.map_nil, map_event_initExecute, waitTotal_append,
    waitTotal_wait, waitTotal_nil, waitTotal_executeEvents_eightBit, waitTotal_executeEvents_fourBit,
    completionDelay_mkRecord]
  omega

/-- Settles O60, by the sums for any durations, evaluated at the defaults. -/
theorem defaultDurationsAreTheListedOnes : Obligations.DefaultDurationsAreTheListedOnes := by
  unfold Obligations.DefaultDurationsAreTheListedOnes
  refine ⟨rfl, rfl, ?instruction, ?handshake⟩
  case instruction =>
    intro backlight i r hb
    rw [waitTotal_executeEvents_fourBit, completionDelay_of_build hb]
    split <;> rfl
  case handshake =>
    intro cfg hcfg
    rw [waitTotal_initEvents _ hcfg]
    rfl

end Sys2Proof.Machine

/-! The statements of spec/10_state.md: the registers, the invariant that every step keeps, and what a step
may change of them. First what the records and bytes of an operation are like, then what a run of events does
to each register, then the step; the statements stand after the lemmas they rest on. -/

namespace Sys2Proof.Machine

/-! ### The records of the factory -/

/-- A byte below `2 ^ i` has none of its bits at `i`. -/
theorem twoPow_and_eq_zero {y : Byte} {i : Nat} (h : y.toNat < 2 ^ i) : BitVec.twoPow 8 i &&& y = 0 := by
  have hbit : y.getLsbD i = false := Nat.testBit_lt_two_pow h
  rw [BitVec.and_comm, BitVec.and_twoPow, hbit]
  rfl

/-- An operand below `2 ^ i` keeps off bit `i` as a byte. -/
theorem twoPow_and_ofInt_eq_zero {x : Int} {i : Nat} (hi : i < 8) (h0 : 0 ≤ x) (h1 : x < 2 ^ i) :
    BitVec.twoPow 8 i &&& BitVec.ofInt 8 x = 0 := by
  apply twoPow_and_eq_zero
  have hpow : (2 : Int) ^ i ≤ 2 ^ 7 := pow_le_pow_right₀ (by decide) (by omega)
  have hval := toNat_ofInt_byte h0 (by omega)
  exact_mod_cast hval ▸ h1

/-- A record keeps its parameters off the opcode's bits and is a write (R28, R30); `RecordInv` says it of
`ir`. -/
def InstrRecord.sound (r : InstrRecord) : Prop := r.opcode &&& r.parameters = 0x00 ∧ r.readWrite = false

theorem recordInv_iff {s : State} : RecordInv s ↔ s.ir.sound := Iff.rfl

theorem mkRecord_sound {opcode parameters : Byte} (h : opcode &&& parameters = 0x00)
    (registerSelect : Bool) (delay : Nat) : (mkRecord opcode parameters registerSelect delay).sound :=
  ⟨h, rfl⟩

/-- The factory's records are sound. -/
theorem sound_of_build {T : Durations} {i : Instr} {r : InstrRecord} (h : build T i = .ok r) :
    r.sound := by
  cases i with
  | clearDisplay | returnHome => cases h; exact mkRecord_sound (by decide) _ _
  | entryModeSet dir shift =>
    cases h
    exact mkRecord_sound (by cases dir <;> cases shift <;> decide) _ _
  | displayOnOff display cursor blinking =>
    cases h
    exact mkRecord_sound (by cases display <;> cases cursor <;> cases blinking <;> decide) _ _
  | cursorOrDisplayShift target direction =>
    cases h
    exact mkRecord_sound (by cases target <;> cases direction <;> decide) _ _
  | functionSet w n f =>
    obtain ⟨-, rfl⟩ := buildFunctionSet_eq_ok_iff.mp h
    exact mkRecord_sound (by cases w <;> cases n <;> cases f <;> decide) _ _
  | writeData x =>
    obtain ⟨-, rfl⟩ := buildWriteData_eq_ok_iff.mp h
    exact mkRecord_sound BitVec.zero_and _ _
  | setCgramAddress x =>
    obtain ⟨⟨h0, h1⟩, rfl⟩ := buildSetCgramAddress_eq_ok_iff.mp h
    exact mkRecord_sound (twoPow_and_ofInt_eq_zero (i := 6) (by decide) h0 (by omega)) _ _
  | setDdramAddress x =>
    obtain ⟨⟨h0, h1⟩, rfl⟩ := buildSetDdramAddress_eq_ok_iff.mp h
    exact mkRecord_sound (twoPow_and_ofInt_eq_zero (i := 7) (by decide) h0 (by omega)) _ _

/-- `write_data` is the only constructor that selects the data register (R29). -/
theorem registerSelect_of_build {T : Durations} {i : Instr} {r : InstrRecord} (h : build T i = .ok r) :
    r.registerSelect = true ↔ ∃ byte, i = .writeData byte := by
  cases i with
  | clearDisplay | returnHome | entryModeSet _ _ | displayOnOff _ _ _ | cursorOrDisplayShift _ _ =>
    cases h; simp [mkRecord]
  | writeData x => obtain ⟨-, rfl⟩ := buildWriteData_eq_ok_iff.mp h; simp [mkRecord]
  | setCgramAddress x => obtain ⟨-, rfl⟩ := buildSetCgramAddress_eq_ok_iff.mp h; simp [mkRecord]
  | setDdramAddress x => obtain ⟨-, rfl⟩ := buildSetDdramAddress_eq_ok_iff.mp h; simp [mkRecord]
  | functionSet w n f => obtain ⟨-, rfl⟩ := buildFunctionSet_eq_ok_iff.mp h; simp [mkRecord]

/-- Settles O9, constructor by constructor. -/
theorem recordsKeepTheirContract : Obligations.RecordsKeepTheirContract := by
  unfold Obligations.RecordsKeepTheirContract
  intro T i r h
  obtain ⟨hapart, hwrite⟩ := sound_of_build h
  exact ⟨hapart, hwrite, registerSelect_of_build h⟩

/-! ### The bytes of an operation -/

theorem mem_writes {b : Byte} {t : List Event} : b ∈ writes t ↔ .write b ∈ t := by
  induction t with
  | nil => simp
  | cons e t ih => cases e <;> simp [ih]

/-- A byte a run may write: RW clear (R88), the backlight bit as configured (R140). -/
def LegalByte (backlight : Bool) (b : Byte) : Prop := b.getLsbD 1 = false ∧ b.getLsbD 3 = backlight

theorem LegalByte.or_backlight {w : Byte} (h : LegalByte false w) (backlight : Bool) :
    LegalByte backlight (w ||| backlightBits backlight) := by
  obtain ⟨hrw, hlight⟩ := h
  unfold LegalByte
  rw [BitVec.getLsbD_or, BitVec.getLsbD_or, hrw, hlight]
  cases backlight <;> decide

theorem LegalByte.or_enable {backlight : Bool} {w : Byte} (h : LegalByte backlight w) :
    LegalByte backlight (w ||| 0x04) := by
  obtain ⟨hrw, hlight⟩ := h
  unfold LegalByte
  rw [BitVec.getLsbD_or, BitVec.getLsbD_or, hrw, hlight]
  cases backlight <;> decide

/-- A nibble byte with RW and backlight bit clear is transmitted in legal bytes. -/
theorem nibbleTx_legal (T : Durations) (backlight : Bool) {w : Byte} (h : LegalByte false w) :
    ∀ b ∈ writes (nibbleTx T backlight w), LegalByte backlight b := by
  have hlit := h.or_backlight backlight
  rw [nibbleTx_eq_pulse, writes_pulse]
  simp only [List.forall_mem_cons]
  exact ⟨hlit, hlit.or_enable, hlit, by simp⟩

theorem hiByte_legal {r : InstrRecord} (h : r.readWrite = false) : LegalByte false (hiByte r) := by
  cases hrs : r.registerSelect <;> simp [LegalByte, hiByte, controlBits, hrs, h, rsBit, dataMask]

theorem loByte_legal {r : InstrRecord} (h : r.readWrite = false) : LegalByte false (loByte r) := by
  cases hrs : r.registerSelect <;> simp [LegalByte, loByte, controlBits, hrs, h, rsBit]

/-- A write record is executed in legal bytes. -/
theorem executeEvents_legal (T : Durations) (mode : BitWidth) (backlight : Bool) {r : InstrRecord}
    (h : r.readWrite = false) : ∀ b ∈ writes (executeEvents T mode backlight r), LegalByte backlight b := by
  have hhi := nibbleTx_legal T backlight (hiByte_legal h)
  have hlo := nibbleTx_legal T backlight (loByte_legal h)
  intro b hb
  cases mode with
  | eightBit =>
    simp only [executeEvents, tx8, writes_append, writes_wait, writes_nil, List.append_nil] at hb
    exact hhi b hb
  | fourBit =>
    simp only [executeEvents, tx4, writes_append, writes_wait, writes_nil, List.append_nil,
      List.mem_append] at hb
    exact hb.elim (hhi b) (hlo b)


/-! ### The slots of an operation -/

/-- What a slot of an operation does: a record it latches is sound, a byte it writes is legal. -/
structure Slot.Lawful (backlight : Bool) (slot : Slot) : Prop where
  load : ∀ r, slot.load = some r → r.sound
  byte : ∀ b, slot.event = .write b → LegalByte backlight b

theorem initSlots_lawful {T : Durations} {cfg : Cfg} (h : invalidPair cfg.lines cfg.font = false) :
    ∀ slot ∈ initSlots T cfg, slot.Lawful cfg.backlight := by
  intro slot hs
  obtain ⟨k, hk⟩ := List.getElem?_of_mem hs
  have hok := initSlots_ok h hk
  simp only [initSlotOk, Bool.and_eq_true] at hok
  obtain ⟨⟨-, hload⟩, hbyte⟩ := hok
  refine ⟨fun r hr => ?_, fun b hb => ?_⟩
  · simpa [hr, InstrRecord.sound] using hload
  · simpa [hb, LegalByte] using hbyte

/-- The slots of an instruction come with no register write. -/
theorem execSlots_plain {s : State} : ∀ slot ∈ execSlots s, slot.load = none ∧ slot.flip = false := by
  intro slot hs
  obtain ⟨e, -, rfl⟩ := List.mem_map.mp hs
  exact ⟨rfl, rfl⟩

theorem execSlots_lawful {s : State} (h : RecordInv s) :
    ∀ slot ∈ execSlots s, slot.Lawful s.cfg.backlight := by
  intro slot hs
  obtain ⟨e, he, rfl⟩ := List.mem_map.mp hs
  obtain ⟨-, hwrite⟩ := h
  refine ⟨by rintro r ⟨⟩, fun b hb => ?_⟩
  obtain rfl : e = .write b := hb
  exact executeEvents_legal _ _ _ hwrite b (mem_writes.mpr he)

/-- The event that flips the mode, event 27, is among the `j + 1` from `k` on, or is not. -/
theorem initSlots_any_flip {T : Durations} {cfg : Cfg} (h : invalidPair cfg.lines cfg.font = false)
    (k j : Nat) :
    (((initSlots T cfg).drop k).take (j + 1)).any (·.flip) = decide (k ≤ 27 ∧ 27 ≤ k + j) := by
  have hflip : ∀ {n : Nat} {slot : Slot}, (initSlots T cfg)[n]? = some slot → (slot.flip = true ↔ n = 27) :=
    fun hs => by simp [initSlots_flip h hs]
  rw [Bool.eq_iff_iff, List.any_eq_true, decide_eq_true_iff]
  constructor
  · rintro ⟨slot, hmem, hslot⟩
    obtain ⟨n, hn⟩ := List.getElem?_of_mem hmem
    have hlt : n < j + 1 := lt_of_lt_of_le (List.getElem?_eq_some_iff.mp hn).1 (List.length_take_le _ _)
    rw [List.getElem?_take_of_lt hlt, List.getElem?_drop] at hn
    have hat := (hflip hn).mp hslot
    omega
  · rintro ⟨hk, hj⟩
    have hlt : 27 < (initSlots T cfg).length := by rw [initSlots_length h]; decide
    have hget : (initSlots T cfg)[27]? = some (initSlots T cfg)[27] := List.getElem?_eq_getElem hlt
    refine ⟨(initSlots T cfg)[27], List.mem_of_getElem? (i := 27 - k) ?_, (hflip hget).mpr rfl⟩
    rw [List.getElem?_take_of_lt (by omega), List.getElem?_drop, show k + (27 - k) = 27 by omega, hget]

/-- The mode of `init_lcd` once events up to `k + j` have begun, from the mode it has at event `k`. -/
theorem initSlots_modeAfter {T : Durations} {cfg : Cfg} (h : invalidPair cfg.lines cfg.font = false)
    (k j : Nat) :
    modeAfter (((initSlots T cfg).drop k).take (j + 1)) (if k ≤ 26 then .eightBit else .fourBit) =
      if k + j ≤ 26 then .eightBit else .fourBit := by
  rw [modeAfter, initSlots_any_flip h]
  by_cases hk : k ≤ 26
  · by_cases hj : k + j ≤ 26
    · have hno : ¬ (27 ≤ k + j) := by omega
      simp [hk, hj, hno]
    · have hyes : k ≤ 27 ∧ 27 ≤ k + j := by omega
      simp [hj, hyes]
  · have hj : ¬ (k + j ≤ 26) := by omega
    simp [hk, hj]

/-- The list the sequencer is in is an instruction's or that of `init_lcd`. -/
theorem currentSlots_cases {s : State} {slots : List Slot} (h : currentSlots s = some slots) :
    s.seq.op = .exec ∧ slots = execSlots s ∨ s.seq.op = .init ∧ slots = initSlots s.durations s.cfg := by
  unfold currentSlots at h
  cases hop : s.seq.op with
  | idle => simp [hop] at h
  | exec => exact .inl ⟨rfl, by simpa [hop] using h.symm⟩
  | init => exact .inr ⟨rfl, by simpa [hop] using h.symm⟩

/-- What the sequencer's list is a function of. -/
theorem currentSlots_congr {s t : State} (hop : t.seq.op = s.seq.op) (hcfg : t.cfg = s.cfg)
    (hdur : t.durations = s.durations)
    (hexec : s.seq.op = .exec → t.ir = s.ir ∧ t.bitMode = s.bitMode) :
    currentSlots t = currentSlots s := by
  unfold currentSlots
  rw [hop]
  cases hs : s.seq.op with
  | idle => rfl
  | exec => obtain ⟨hir, hmode⟩ := hexec hs; simp [execSlots, hir, hmode, hcfg, hdur]
  | init => simp [hcfg, hdur]

/-! ### What a run does to each register -/

section Runs

variable (slots : List Slot) (p : Option Pause) (s : State)

/-- A run only adds to the trace (R60). -/
theorem runSlots_trace_prefix : s.trace <+: (runSlots slots p s).trace := by
  apply runSlots_keeps (fun u => s.trace <+: u.trace)
  case hbegin => exact fun slot _ u h => h
  case hwait => exact fun d u h => h.trans (List.prefix_append _ _)
  case hack => exact fun b _ u h => h.trans (List.prefix_append _ _)
  case hfail => exact fun b taken report u h => by simpa using h
  case hdone => exact fun u h => h
  case htimer => exact fun t u h => h
  case h => exact List.prefix_rfl

/-- A run leaves `bit_mode` or makes it FourBit (R165). -/
theorem runSlots_bitMode :
    (runSlots slots p s).bitMode = s.bitMode ∨ (runSlots slots p s).bitMode = .fourBit := by
  apply runSlots_keeps (fun u => u.bitMode = s.bitMode ∨ u.bitMode = .fourBit)
  case hbegin => exact fun slot _ u h => by cases hf : slot.flip <;> simp [hf, h]
  case hwait => exact fun d u h => h
  case hack => exact fun b _ u h => h
  case hfail => exact fun b taken report u h => by simpa using h
  case hdone => exact fun u h => h
  case htimer => exact fun t u h => h
  case h => exact .inl rfl

/-- Only the slots write `ir` and `bit_mode`. -/
theorem runSlots_plain (h : ∀ slot ∈ slots, slot.load = none ∧ slot.flip = false) :
    (runSlots slots p s).ir = s.ir ∧ (runSlots slots p s).bitMode = s.bitMode := by
  apply runSlots_keeps (fun u => u.ir = s.ir ∧ u.bitMode = s.bitMode)
  case hbegin =>
    intro slot hs u hu
    obtain ⟨hload, hflip⟩ := h slot hs
    simpa [hload, hflip] using hu
  case hwait => exact fun d u h => h
  case hack => exact fun b _ u h => h
  case hfail => exact fun b taken report u h => by simpa using h
  case hdone => exact fun u h => h
  case htimer => exact fun t u h => h
  case h => exact ⟨rfl, rfl⟩

/-- A run of lawful slots keeps `ir` sound. -/
theorem runSlots_recordInv {backlight : Bool} (hslots : ∀ slot ∈ slots, slot.Lawful backlight)
    (h : RecordInv s) : RecordInv (runSlots slots p s) := by
  apply runSlots_keeps RecordInv
  case hbegin =>
    intro slot hs u hu
    rw [recordInv_iff, beginSlot_ir]
    cases hl : slot.load with
    | none => exact hu
    | some r => exact (hslots slot hs).load r hl
  case hwait => exact fun d u h => h
  case hack => exact fun b _ u h => h
  case hfail => exact fun b taken report u h => by simpa [RecordInv] using h
  case hdone => exact fun u h => h
  case htimer => exact fun t u h => h
  case h => exact h

/-- A run of lawful slots writes no byte with RW set. -/
theorem runSlots_bytesInv {backlight : Bool} (hslots : ∀ slot ∈ slots, slot.Lawful backlight)
    (h : BytesInv s) : BytesInv (runSlots slots p s) := by
  apply runSlots_keeps BytesInv
  case hbegin => exact fun slot _ u h => h
  case hwait => exact fun d u h => by simpa [BytesInv] using h
  case hack =>
    intro b hb u hu
    obtain ⟨slot, hs, he⟩ := List.mem_map.mp hb
    obtain ⟨hrw, -⟩ := (hslots slot hs).byte b he
    have hnew : ∀ x ∈ writes [.write b], x.getLsbD 1 = false := List.forall_mem_singleton.mpr hrw
    rw [BytesInv, writeAcked_trace, writes_append]
    exact List.forall_mem_append.mpr ⟨hu, hnew⟩
  case hfail => exact fun b taken report u h => by simpa [BytesInv] using h
  case hdone => exact fun u h => h
  case htimer => exact fun t u h => h
  case h => exact h

end Runs

/-- A command that has ended: one response was added and `err` has its code (R35, R42). -/
def Ended (s t : State) : Prop :=
  t.busy = false ∧ ∃ r, t.responses = s.responses ++ [r] ∧ t.err = responseCode r

/-- A run without a pause ends. -/
theorem runSlots_none_ended (slots : List Slot) (s : State) : Ended s (runSlots slots none s) := by
  induction slots generalizing s with
  | nil => exact ⟨rfl, .done, rfl, rfl⟩
  | cons slot rest ih =>
    have hrun : runSlots (slot :: rest) none s = match finishSlot slot (beginSlot slot s) with
        | .continues s' => runSlots rest none s'
        | .aborted s' => s' := rfl
    obtain ⟨d, -, he⟩ | ⟨b, -, -, he⟩ | ⟨b, taken, report, -, -, he⟩ :=
      finishSlot_cases slot (beginSlot slot s) <;> rw [hrun, he]
    · exact ih (waitElapsed d (beginSlot slot s))
    · exact ih (writeAcked b (beginSlot slot s))
    · exact ⟨by simp, .failed (.transportFailure s.seq report), by simp, by simp [responseCode, errorCode]⟩

/-- A run has ended with one response, or goes on and has given none. -/
theorem runSlots_response (slots : List Slot) (p : Option Pause) (s : State) :
    Ended s (runSlots slots p s) ∨
    ((runSlots slots p s).busy = s.busy ∧ (runSlots slots p s).responses = s.responses ∧
      (runSlots slots p s).err = s.err) := by
  cases p with
  | none => exact .inl (runSlots_none_ended slots s)
  | some p =>
    obtain hsame | ⟨j, -, -, hbusy, hresp, herr, -, -⟩ := runSlots_paused slots p s
    · exact .inl (hsame ▸ runSlots_none_ended slots s)
    · exact .inr ⟨hbusy, hresp, herr⟩

/-! ### A running operation from where it stands -/

theorem runOp_frame (slots : List Slot) (s : State) :
    (runOp slots s).cfg = s.cfg ∧ (runOp slots s).transport = s.transport ∧
    (runOp slots s).durations = s.durations ∧ (runOp slots s).commands = s.commands := by
  obtain ⟨hcfg, htransport, hdur, hcmds, -, -⟩ :=
    runSlots_frame (slots.drop s.seq.k) s.pauses.head? { s with pauses := s.pauses.tail }
  exact ⟨hcfg, htransport, hdur, hcmds⟩

theorem runOp_trace_prefix (slots : List Slot) (s : State) : s.trace <+: (runOp slots s).trace :=
  runSlots_trace_prefix (slots.drop s.seq.k) s.pauses.head? { s with pauses := s.pauses.tail }

theorem runOp_bitMode (slots : List Slot) (s : State) :
    (runOp slots s).bitMode = s.bitMode ∨ (runOp slots s).bitMode = .fourBit :=
  runSlots_bitMode (slots.drop s.seq.k) s.pauses.head? { s with pauses := s.pauses.tail }

theorem runOp_response (slots : List Slot) (s : State) :
    Ended s (runOp slots s) ∨
    ((runOp slots s).busy = s.busy ∧ (runOp slots s).responses = s.responses ∧
      (runOp slots s).err = s.err) :=
  runSlots_response (slots.drop s.seq.k) s.pauses.head? { s with pauses := s.pauses.tail }

/-- An instruction leaves `ir` and `bit_mode` as they are once it is accepted (R101). -/
theorem runOp_exec {slots : List Slot} {s : State} (h : currentSlots s = some slots)
    (hop : s.seq.op = .exec) :
    (runOp slots s).ir = s.ir ∧ (runOp slots s).bitMode = s.bitMode := by
  obtain ⟨-, rfl⟩ | ⟨hinit, -⟩ := currentSlots_cases h
  · exact runSlots_plain _ _ { s with pauses := s.pauses.tail }
      (fun slot hs => execSlots_plain slot (List.mem_of_mem_drop hs))
  · rw [hop] at hinit; cases hinit


/-! ### How a step comes about

`StepCase` says which command is served; here what the step then does with the state: it takes a command off
the port and raises an error, or runs the slots of an operation from an accepted state. -/

/-- The accepted state in which `init_lcd` starts to run. -/
def acceptedInit (s : State) : State := startOp .init { s with phase := .initializing }

/-- A step runs the slots of `u`: an operation that goes on, an instruction, or `init_lcd`. -/
inductive RunStart (s : State) (slots : List Slot) : State → Prop where
  | resumed (busy : s.busy = true) (notReset : noConstruct s) (current : currentSlots s = some slots) :
      RunStart s slots s
  | instr (r : InstrRecord) (rest : List Command) (idle : s.busy = false) (notFaulted : s.phase ≠ .faulted)
      (sound : r.sound) (run : slots = recordSlots r s) :
      RunStart s slots (acceptedExec r { s with commands := rest })
  | init (rest : List Command) (idle : s.busy = false) (head : s.commands = .init :: rest)
      (fresh : s.phase = .uninitialized) (pair : invalidPair s.cfg.lines s.cfg.font = false)
      (run : slots = initSlots s.durations s.cfg) :
      RunStart s slots (acceptedInit { s with commands := rest })

/-- What a step answers with. -/
inductive StepEffect (s t : State) : Prop where
  | unchanged (same : t = s)
  | constructed (cfg : Cfg) (transport : Nat) (rest : List Command)
      (head : s.commands = .construct cfg transport :: rest)
      (result : t = construct cfg transport (abandon { s with commands := rest }))
  | rejected (e : CmdError) (rest : List Command) (result : t = raise e { s with commands := rest })
  | ran (u : State) (slots : List Slot) (start : RunStart s slots u) (result : t = runOp slots u)

/-- An instruction ends with an error at once, or its record runs. -/
theorem exec_effect {i : Instr} {s t : State} (h : exec i s = .next t) :
    (∃ e, t = raise e s) ∨
    (s.phase ≠ .faulted ∧ ∃ r, build s.durations i = .ok r ∧
      t = runOp (recordSlots r s) (acceptedExec r s)) := by
  rw [exec_eq] at h
  obtain ⟨-, he⟩ | ⟨-, e, -, he⟩ | ⟨hphase, r, hr, he⟩ := execBuilt_cases (build s.durations i) s <;>
    rw [he, Host.Outcome.next.injEq] at h
  · exact .inl ⟨_, h.symm⟩
  · exact .inl ⟨e, h.symm⟩
  · exact .inr ⟨hphase, r, hr, h.symm⟩

/-- `INIT` ends with an error at once, or the handshake runs. -/
theorem execInit_effect {s t : State} (h : execInit s = .next t) :
    (∃ e, t = raise e s) ∨
    (s.phase = .uninitialized ∧ invalidPair s.cfg.lines s.cfg.font = false ∧
      t = runOp (initSlots s.durations s.cfg) (acceptedInit s)) := by
  obtain ⟨-, he⟩ | ⟨-, -, he⟩ | ⟨hphase, hpair, he⟩ := execInit_cases s <;>
    rw [he, Host.Outcome.next.injEq] at h
  · exact .inl ⟨_, h.symm⟩
  · exact .inl ⟨_, h.symm⟩
  · exact .inr ⟨hphase, hpair, h.symm⟩

theorem step_effect {s t : State} (h : step s = .next t) : StepEffect s t := by
  cases step_cases h with
  | nothing _ _ same => exact .unchanged same
  | constructed cfg transport rest head result => exact .constructed cfg transport rest head result
  | init rest idle head result =>
    obtain ⟨e, ht⟩ | ⟨hfresh, hpair, ht⟩ := execInit_effect result
    · exact .rejected e rest ht
    · exact .ran _ _ (.init rest idle head hfresh hpair rfl) ht
  | instr i c rest idle _ _ result =>
    obtain ⟨e, ht⟩ | ⟨hphase, r, hr, ht⟩ := exec_effect result
    · exact .rejected e rest ht
    · exact .ran _ _ (.instr r rest idle hphase (sound_of_build hr) rfl) ht
  | resumed slots busy notReset current result => exact .ran _ _ (.resumed busy notReset current) result

/-- The sequencer of a state that runs is in the list that runs. -/
theorem RunStart.current {s u : State} {slots : List Slot} (h : RunStart s slots u) :
    currentSlots u = some slots := by
  cases h with
  | resumed _ _ current => exact current
  | instr r rest _ _ _ run => rw [run]; rfl
  | init rest _ _ _ _ run => rw [run]; rfl

/-- What accepting a command leaves alone. -/
theorem RunStart.frame {s u : State} {slots : List Slot} (h : RunStart s slots u) :
    u.cfg = s.cfg ∧ u.transport = s.transport ∧ u.durations = s.durations ∧ u.bitMode = s.bitMode ∧
    u.responses = s.responses := by
  cases h <;> exact ⟨rfl, rfl, rfl, rfl, rfl⟩

/-! ### What keeps the invariant -/

theorem ModeInv.of_faulted {s : State} (h : s.phase = .faulted) : ModeInv s := by
  simp [ModeInv, h]

theorem ModeInv.of_ready {s : State} (hphase : s.phase = .ready) (hmode : s.bitMode = .fourBit)
    (hwidth : s.cfg.bitWidth = .fourBit) (hpair : invalidPair s.cfg.lines s.cfg.font = false) :
    ModeInv s := by
  simp [ModeInv, hphase, hmode, hwidth, hpair]

theorem ModeInv.of_initializing {s : State} (hphase : s.phase = .initializing)
    (hwidth : s.cfg.bitWidth = .fourBit) (hpair : invalidPair s.cfg.lines s.cfg.font = false) :
    ModeInv s := by
  simp [ModeInv, hphase, hwidth, hpair]

/-- While `init_lcd` runs the mode may flip; otherwise phase, mode and configuration have to stay. -/
theorem ModeInv.of_same_phase {s t : State} (h : ModeInv s) (hphase : t.phase = s.phase)
    (hcfg : t.cfg = s.cfg) (hmode : s.phase ≠ .initializing → t.bitMode = s.bitMode) : ModeInv t := by
  obtain ⟨huninit, hready, hwidth, hpair⟩ := h
  refine ⟨fun hp => ?_, fun hp => ?_, ?_, ?_⟩
  · rw [hphase] at hp
    rw [hmode (by simp [hp]), huninit hp]
  · rw [hphase] at hp
    rw [hmode (by simp [hp]), hready hp]
  · rwa [hphase, hcfg]
  · rwa [hphase, hcfg]

/-- An idle block meets the invariant when its registers do. -/
theorem Coherent.of_ended {s : State} (hmode : ModeInv s) (hbusy : s.busy = false)
    (hseq : s.seq = Seq.idle) (htimer : s.timer = 0) (hphase : s.phase ≠ .initializing)
    (hrecord : RecordInv s) (hbytes : BytesInv s) (hpins : Memory.wf s.pins) : Coherent s :=
  ⟨hmode, fun _ => ⟨hseq, htimer, hphase⟩, fun h => by simp [hbusy] at h, hrecord, hbytes, hpins⟩

/-- `init_lcd` runs only in a busy block (R23, R35). -/
theorem Coherent.busy_of_initializing {s : State} (h : Coherent s) (hphase : s.phase = .initializing) :
    s.busy = true := by
  by_contra hbusy
  obtain ⟨-, -, hne⟩ := h.idle (Bool.eq_false_iff.mpr hbusy)
  exact hne hphase

/-- An error that ends a command, and what the host still presents, are of no account to the invariant. -/
theorem Coherent.raise {s : State} (h : Coherent s) (e : CmdError) (rest : List Command) :
    Coherent (raise e { s with commands := rest }) :=
  ⟨h.mode, h.idle, h.busy, h.record, h.bytes, h.pins⟩

theorem abandon_wf {s : State} (h : Memory.wf s.pins) : Memory.wf (abandon s).pins := by
  obtain ⟨pins, answers, he, rfl | ⟨b, -, rfl⟩⟩ := abandon_eq s <;> rw [he]
  · exact h
  · exact Memory.write_wf h _ _

@[simp] theorem abandon_trace (s : State) : (abandon s).trace = s.trace := by
  obtain ⟨pins, answers, he, -⟩ := abandon_eq s; rw [he]

@[simp] theorem abandon_responses (s : State) : (abandon s).responses = s.responses := by
  obtain ⟨pins, answers, he, -⟩ := abandon_eq s; rw [he]

@[simp] theorem abandon_durations (s : State) : (abandon s).durations = s.durations := by
  obtain ⟨pins, answers, he, -⟩ := abandon_eq s; rw [he]

theorem construct_modeInv (cfg : Cfg) (transport : Nat) (s : State) :
    ModeInv (construct cfg transport s) := by
  cases hw : cfg.bitWidth <;> simp [ModeInv, hw]

/-- A construction meets the invariant whatever operation it abandons (R230, R237). -/
theorem construct_coherent {s : State} (h : Coherent s) (cfg : Cfg) (transport : Nat)
    (rest : List Command) : Coherent (construct cfg transport (abandon { s with commands := rest })) := by
  refine .of_ended (construct_modeInv _ _ _) rfl rfl rfl ?_ (mkRecord_sound BitVec.zero_and false 0) ?_
    (abandon_wf h.pins)
  · rw [construct_phase]; split <;> simp
  · rw [BytesInv, construct_trace, abandon_trace]; exact h.bytes

/-- A state whose operation can run on: the invariant, but for the counter, which the coming event may still
have to load. -/
structure Running (slots : List Slot) (u : State) : Prop where
  current : currentSlots u = some slots
  busy : u.busy = true
  notFaulted : u.phase ≠ .faulted
  init_iff : u.seq.op = .init ↔ u.phase = .initializing
  initMode : u.seq.op = .init → u.bitMode = if u.seq.k ≤ 26 then .eightBit else .fourBit
  timer : timerReady (slots.drop u.seq.k) u.timer
  mode : ModeInv u
  record : RecordInv u
  bytes : BytesInv u
  pins : Memory.wf u.pins

/-- From the invariant, whatever a step runs can run on. -/
theorem RunStart.running {s u : State} {slots : List Slot} (h : Coherent s) (hstart : RunStart s slots u) :
    Running slots u := by
  have hcurrent := hstart.current
  obtain ⟨huninit, -, hwidth, -⟩ := h.mode
  cases hstart with
  | resumed busy _ _ =>
    obtain ⟨hphase, hinit, hmode, slots', slot, hslots', hat, hfit⟩ := h.busy busy
    obtain rfl : slots = slots' := Option.some.inj (hcurrent.symm.trans hslots')
    obtain ⟨hlt, rfl⟩ := List.getElem?_eq_some_iff.mp hat
    exact ⟨hcurrent, busy, hphase, hinit, hmode, .inr ⟨_, _, List.drop_eq_getElem_cons hlt, hfit⟩, h.mode, h.record,
      h.bytes, h.pins⟩
  | instr r rest idle notFaulted sound run =>
    obtain ⟨-, htimer, hphase⟩ := h.idle idle
    have hinit : (acceptedExec r { s with commands := rest }).seq.op = .init ↔
        (acceptedExec r { s with commands := rest }).phase = .initializing := by simp [hphase]
    exact ⟨hcurrent, rfl, notFaulted, hinit, by simp, .inl htimer, h.mode, sound, h.bytes, h.pins⟩
  | init rest idle head fresh pair run =>
    obtain ⟨-, htimer, -⟩ := h.idle idle
    exact ⟨hcurrent, rfl, by simp [acceptedInit], by simp [acceptedInit], fun _ => huninit fresh, .inl htimer,
      .of_initializing rfl (hwidth (by simp [fresh])) pair, h.record, h.bytes, h.pins⟩

section Running

variable {slots : List Slot} {u : State} (h : Running slots u)
include h

theorem Running.op_eq_exec (hphase : u.phase ≠ .initializing) : u.seq.op = .exec := by
  obtain ⟨hop, -⟩ | ⟨hop, -⟩ := currentSlots_cases h.current
  · exact hop
  · exact absurd (h.init_iff.mp hop) hphase

/-- `init_lcd` runs under a valid configuration (R160), and its list is in the sequencer. -/
theorem Running.init (hop : u.seq.op = .init) :
    invalidPair u.cfg.lines u.cfg.font = false ∧ slots = initSlots u.durations u.cfg := by
  obtain ⟨-, -, -, hpair⟩ := h.mode
  obtain ⟨hexec, -⟩ | ⟨-, hslots⟩ := currentSlots_cases h.current
  · rw [hop] at hexec; cases hexec
  · exact ⟨hpair (.inl (h.init_iff.mp hop)), hslots⟩

theorem Running.lawful : ∀ slot ∈ slots, slot.Lawful u.cfg.backlight := by
  obtain ⟨-, rfl⟩ | ⟨hop, -⟩ := currentSlots_cases h.current
  · exact execSlots_lawful h.record
  · obtain ⟨hpair, rfl⟩ := h.init hop
    exact initSlots_lawful hpair

/-- It runs in one of the three ways. -/
theorem Running.result : RunResult (slots.drop u.seq.k) { u with pauses := u.pauses.tail } (runOp slots u) :=
  runSlots_result _ _ _ h.timer

/-- Outside `init_lcd` nothing changes the mode (R101). -/
theorem Running.bitMode_runOp (hphase : u.phase ≠ .initializing) :
    (runOp slots u).bitMode = u.bitMode := by
  obtain ⟨-, hmode⟩ := runOp_exec h.current (h.op_eq_exec hphase)
  exact hmode

/-- The mode of `init_lcd` when events up to `k + j` have begun. -/
theorem Running.modeAfter_init (hop : u.seq.op = .init) (j : Nat) :
    modeAfter ((slots.drop u.seq.k).take (j + 1)) u.bitMode =
      if u.seq.k + j ≤ 26 then .eightBit else .fourBit := by
  obtain ⟨hpair, rfl⟩ := h.init hop
  rw [h.initMode hop, initSlots_modeAfter hpair]

/-- `init_lcd` is in FourBit when it is through (R165). -/
theorem Running.modeAfter_init_all (hop : u.seq.op = .init) :
    modeAfter (slots.drop u.seq.k) u.bitMode = .fourBit := by
  have hlast := h.modeAfter_init hop 70
  obtain ⟨hpair, rfl⟩ := h.init hop
  have hlen : ((initSlots u.durations u.cfg).drop u.seq.k).length ≤ 71 := by
    rw [List.length_drop, initSlots_length hpair]; omega
  rw [List.take_of_length_le hlen] at hlast
  rw [hlast, if_neg (by omega)]

/-- The rest of the run leaves the list in the sequencer as it is, as long as it stands in it. -/
theorem Running.currentSlots_runOp (hop : (runOp slots u).seq.op = u.seq.op) :
    currentSlots (runOp slots u) = some slots := by
  obtain ⟨hcfg, -, hdur, -⟩ := runOp_frame slots u
  rw [← h.current]
  exact currentSlots_congr hop hcfg hdur (runOp_exec h.current)

/-- The invariant at an event at which the run pauses. -/
theorem Running.busyInv_of_standsAt {j : Nat} {slot : Slot}
    (hst : StandsAt (slots.drop u.seq.k) { u with pauses := u.pauses.tail } (runOp slots u) j slot) :
    BusyInv (runOp slots u) := by
  have hop : (runOp slots u).seq.op = u.seq.op := by rw [hst.seq]
  have hk : (runOp slots u).seq.k = u.seq.k + j := by rw [hst.seq]
  intro _
  refine ⟨?_, ?_, fun hinit => ?_, slots, slot, h.currentSlots_runOp hop, ?_, hst.timer⟩
  · rw [hst.phase]; exact h.notFaulted
  · rw [hop, hst.phase]; exact h.init_iff
  · rw [hst.mode, hk]; exact h.modeAfter_init (hop.symm.trans hinit) j
  · rw [hk, ← List.getElem?_drop]; exact hst.at_slot

/-- The phase and the mode agree when the run is through: `init_lcd` leaves Ready in FourBit (R167). -/
theorem Running.modeInv_of_runsOut
    (hout : RunsOut (slots.drop u.seq.k) { u with pauses := u.pauses.tail } (runOp slots u)) :
    ModeInv (runOp slots u) := by
  obtain ⟨hcfg, -, -, -⟩ := runOp_frame slots u
  obtain ⟨-, -, hwidth, -⟩ := h.mode
  by_cases hop : u.seq.op = .init
  · obtain ⟨hpair, -⟩ := h.init hop
    refine .of_ready ?_ ?_ (hcfg ▸ hwidth h.notFaulted) (hcfg ▸ hpair)
    · rw [hout.phase, if_pos hop]
    · rw [hout.mode]; exact h.modeAfter_init_all hop
  · exact h.mode.of_same_phase (hout.phase.trans (if_neg hop)) hcfg h.bitMode_runOp

/-- A run keeps the invariant, however it ends. -/
theorem Running.coherent : Coherent (runOp slots u) := by
  have hlawful : ∀ slot ∈ slots.drop u.seq.k, slot.Lawful u.cfg.backlight :=
    fun slot hs => h.lawful slot (List.mem_of_mem_drop hs)
  have hrecord : RecordInv (runOp slots u) := runSlots_recordInv _ _ _ hlawful h.record
  have hbytes : BytesInv (runOp slots u) := runSlots_bytesInv _ _ _ hlawful h.bytes
  have hpins : Memory.wf (runOp slots u).pins := runSlots_wf _ _ _ h.pins
  obtain ⟨hcfg, -, -, -⟩ := runOp_frame slots u
  obtain ⟨j, slot, hst⟩ | hout | ⟨j, b, report, hfail⟩ := h.result
  · have hbusy : (runOp slots u).busy = true := hst.busy.trans h.busy
    exact ⟨h.mode.of_same_phase hst.phase hcfg h.bitMode_runOp, fun hidle => by simp [hbusy] at hidle,
      h.busyInv_of_standsAt hst, hrecord, hbytes, hpins⟩
  · refine .of_ended (h.modeInv_of_runsOut hout) hout.busy hout.seq hout.timer ?_ hrecord hbytes hpins
    rw [hout.phase]
    split
    · simp
    · exact fun hp => ‹¬ _› (h.init_iff.mpr hp)
  · exact .of_ended (.of_faulted hfail.phase) hfail.busy hfail.seq hfail.timer (by simp [hfail.phase]) hrecord
      hbytes hpins

end Running


/-! ### The invariant: the statements -/

/-- Settles O42: the values `State.reset` is written with. -/
theorem resetRegisterValues : Obligations.ResetRegisterValues := by
  unfold Obligations.ResetRegisterValues
  exact ⟨rfl, rfl, rfl, rfl, rfl, rfl, rfl⟩

/-- Settles O49: the block at reset is idle, and its registers agree (R45). -/
theorem resetMeetsTheInvariant : Obligations.ResetMeetsTheInvariant := by
  unfold Obligations.ResetMeetsTheInvariant
  refine .of_ended ?_ rfl rfl rfl (by decide) (mkRecord_sound BitVec.zero_and false 0) ?_ List.Pairwise.nil
  · unfold ModeInv; decide
  · simp [BytesInv, State.reset]

/-- Settles O50: a construction sets every register, an error touches none the invariant speaks of, and a run
keeps it however it ends. -/
theorem stepKeepsTheInvariant : Obligations.StepKeepsTheInvariant := by
  unfold Obligations.StepKeepsTheInvariant
  intro s t h hstep
  cases step_effect hstep with
  | unchanged same => exact same ▸ h
  | constructed cfg transport rest _ result => exact result ▸ construct_coherent h cfg transport rest
  | rejected e rest result => exact result ▸ h.raise e rest
  | ran u slots start result => exact result ▸ (start.running h).coherent

/-- Settles O52: of what runs, only `init_lcd` has the slot that flips the mode. -/
theorem bitModeChangesOnlyInInit : Obligations.BitModeChangesOnlyInInit := by
  unfold Obligations.BitModeChangesOnlyInInit
  intro s t h hstep hchange
  cases step_effect hstep with
  | unchanged same => exact absurd (congrArg _ same) hchange
  | constructed cfg transport rest head result =>
    exact .inl ⟨cfg, transport, rest, head, by rw [result, construct_bitMode]⟩
  | rejected e rest result => exact absurd (by rw [result, raise_bitMode]) hchange
  | ran u slots start result =>
    have hrun := start.running h
    obtain ⟨-, -, -, hmode, -⟩ := start.frame
    have hdiff : (runOp slots u).bitMode ≠ u.bitMode := by rwa [← result, hmode]
    have hphase : u.phase = .initializing := by
      by_contra hphase
      exact hdiff (hrun.bitMode_runOp hphase)
    refine .inr ⟨result ▸ (runOp_bitMode slots u).resolve_left hdiff, ?_⟩
    cases start with
    | resumed _ _ _ => exact .inl hphase
    | instr r rest idle _ _ _ => simp [h.busy_of_initializing hphase] at idle
    | init rest _ head fresh _ _ => exact .inr ⟨fresh, rest, head⟩

/-- The phase after a run: it stays, a write failed, or `init_lcd` is through. -/
theorem RunResult.phase_cases {slots : List Slot} {s t : State} (h : RunResult slots s t) :
    t.phase = s.phase ∨ (t.phase = .faulted ∧ t.err = .transportFailure) ∨
      (s.seq.op = .init ∧ t.phase = .ready) := by
  obtain ⟨j, slot, hst⟩ | hout | ⟨j, b, report, hfail⟩ := h
  · exact .inl hst.phase
  · by_cases hop : s.seq.op = .init
    · exact .inr (.inr ⟨hop, hout.phase.trans (if_pos hop)⟩)
    · exact .inl (hout.phase.trans (if_neg hop))
  · exact .inr (.inl ⟨hfail.phase, hfail.err⟩)

/-- Settles O53: what a run does to the phase, for each way it is started; that Ready goes with FourBit and
Initializing with a busy block is the invariant of the state reached. -/
theorem phaseFollowsTheLifecycle : Obligations.PhaseFollowsTheLifecycle := by
  unfold Obligations.PhaseFollowsTheLifecycle
  intro s t h hno hstep
  have hnext := stepKeepsTheInvariant s t h hstep
  obtain ⟨-, hready, -, -⟩ := hnext.mode
  cases step_effect hstep with
  | unchanged same => exact .inl (congrArg _ same)
  | constructed cfg transport rest head _ => exact absurd head (hno cfg transport rest)
  | rejected e rest result => exact .inl (by rw [result, raise_phase])
  | ran u slots start result =>
    have hrun := start.running h
    obtain hsame | hfail | ⟨hop, hthrough⟩ := result ▸ hrun.result.phase_cases
    case inl =>
      cases start with
      | resumed _ _ _ => exact .inl hsame
      | instr r rest _ _ _ _ => exact .inl hsame
      | init rest _ head fresh _ _ =>
        have hinit : t.phase = .initializing := hsame
        exact .inr (.inr (.inr ⟨fresh, ⟨rest, head⟩, .inl ⟨hinit, hnext.busy_of_initializing hinit⟩⟩))
    case inr.inl => exact .inr (.inl hfail)
    case inr.inr =>
      cases start with
      | resumed _ _ _ =>
        exact .inr (.inr (.inl ⟨hrun.init_iff.mp hop, hthrough, hready hthrough⟩))
      | instr r rest _ _ _ _ => cases hop
      | init rest _ head fresh _ _ =>
        exact .inr (.inr (.inr ⟨fresh, ⟨rest, head⟩, .inr ⟨hthrough, hready hthrough⟩⟩))

/-! ### What every step leaves alone -/

/-- Settles O54. -/
theorem configurationIsFixed : Obligations.ConfigurationIsFixed := by
  unfold Obligations.ConfigurationIsFixed
  intro s t hstep
  cases step_effect hstep with
  | unchanged same => subst same; exact ⟨rfl, fun _ => ⟨rfl, rfl⟩⟩
  | constructed cfg transport rest head result =>
    refine ⟨by rw [result, construct_durations, abandon_durations], fun hno => ?_⟩
    exact absurd head (hno cfg transport rest)
  | rejected e rest result => subst result; exact ⟨rfl, fun _ => ⟨rfl, rfl⟩⟩
  | ran u slots start result =>
    obtain ⟨hcfg, htransport, hdur, -, -⟩ := start.frame
    obtain ⟨hcfg', htransport', hdur', -⟩ := runOp_frame slots u
    subst result
    exact ⟨hdur'.trans hdur, fun _ => ⟨hcfg'.trans hcfg, htransport'.trans htransport⟩⟩

/-- The responses a step adds: none, or one. -/
theorem step_responses {s t : State} (hstep : step s = .next t) :
    ∃ new, t.responses = s.responses ++ new ∧ new.length ≤ 1 := by
  cases step_effect hstep with
  | unchanged same => exact ⟨[], by simp [same], by simp⟩
  | constructed cfg transport rest _ result => exact ⟨[], by simp [result], by simp⟩
  | rejected e rest result => exact ⟨[.failed e], by simp [result], by simp⟩
  | ran u slots start result =>
    obtain ⟨-, -, -, -, hresp⟩ := start.frame
    rw [result, ← hresp]
    obtain ⟨-, r, hr, -⟩ | ⟨-, hr, -⟩ := runOp_response slots u
    · exact ⟨[r], hr, by simp⟩
    · exact ⟨[], by simp [hr], by simp⟩

/-- Responses that are added leave the mark of a `SequenceError` (R207). -/
theorem leftSpecification_of_append {s t : State} {new : List Response}
    (h : t.responses = s.responses ++ new) (hs : leftSpecification s = true) :
    leftSpecification t = true := by
  unfold leftSpecification at hs ⊢
  rw [h, List.any_append, hs, Bool.true_or]

/-- Settles O56. -/
theorem responsesAreNeverTakenBack : Obligations.ResponsesAreNeverTakenBack := by
  unfold Obligations.ResponsesAreNeverTakenBack
  intro s t hstep
  obtain ⟨new, hnew, hlen⟩ := step_responses hstep
  exact ⟨⟨new, hnew, hlen⟩, leftSpecification_of_append hnew⟩

/-- Settles O34: an error is the one response of a command that ends at once, and a run gives its own only
when it ends. -/
theorem oneResponsePerInstruction : Obligations.OneResponsePerInstruction := by
  unfold Obligations.OneResponsePerInstruction
  intro i s t hidle hexec
  obtain ⟨e, rfl⟩ | ⟨-, r, -, rfl⟩ := exec_effect hexec
  · exact .inl ⟨hidle, .failed e, rfl, rfl⟩
  · exact runOp_response (recordSlots r s) (acceptedExec r s)

/-! ### The port -/

theorem step_eq_next {s : State} (hidle : s.busy = false) (hc : s.commands = []) : step s = .next s := by
  simp [step, stepPort, hc, hidle]

/-- A command the port takes is served. -/
theorem step_eq_serve {s : State} {c : Command} {rest : List Command} (hc : s.commands = c :: rest)
    (ha : accepts c s = true) : step s = serve c { s with commands := rest } := by
  simp [step, stepPort, hc, ha]

theorem accepts_of_idle {s : State} (c : Command) (hidle : s.busy = false) : accepts c s = true := by
  cases c <;> simp [accepts, hidle]

/-- A busy block to which no reset is presented goes on (R43). -/
theorem step_eq_resume {s : State} (hbusy : s.busy = true) (hno : noConstruct s) : step s = resume s := by
  cases hc : s.commands with
  | nil => simp [step, stepPort, hc, hbusy]
  | cons c rest =>
    have hwait : accepts c s = false := by
      cases c with
      | construct cfg transport => exact absurd hc (hno cfg transport rest)
      | init | exec _ | word _ _ => simp [accepts, hbusy]
    simp [step, stepPort, hc, hwait]

theorem execWord_of_decode {lo hi : Byte} {i : Instr} {left : List Byte} (h : decode [lo, hi] = .ok (i, left))
    (s : State) : execWord lo hi s = exec i s := by
  simp [execWord, h]

/-- An instruction answers a next state. -/
theorem exec_ne_fault (i : Instr) (s : State) (f : Fault) : exec i s ≠ .fault f := by
  rw [exec_eq]
  obtain ⟨-, he⟩ | ⟨-, e, -, he⟩ | ⟨-, r, -, he⟩ := execBuilt_cases (build s.durations i) s <;> simp [he]

/-- Serving a command never faults: a word without a meaning is refused (R85, R87). -/
theorem serve_ne_fault (c : Command) (s : State) (f : Fault) : serve c s ≠ .fault f := by
  cases c with
  | construct cfg transport => simp [serve]
  | init =>
    obtain ⟨-, he⟩ | ⟨-, -, he⟩ | ⟨-, -, he⟩ := execInit_cases s <;> simp [serve, he]
  | exec i => exact exec_ne_fault i s f
  | word lo hi =>
    show execWord lo hi s ≠ .fault f
    cases hd : decode [lo, hi] with
    | ok x => obtain ⟨i, left⟩ := x; rw [execWord_of_decode hd]; exact exec_ne_fault i s f
    | error e => cases e <;> simp [execWord, hd]

/-- Settles O51: a command that is served never faults, and a busy block has a list to go on with. -/
theorem noStepFaults : Obligations.NoStepFaults := by
  unfold Obligations.NoStepFaults
  intro s f h
  have hserved : ∀ c rest, s.commands = c :: rest → accepts c s = true → step s ≠ .fault f := by
    intro c rest hc ha
    rw [step_eq_serve hc ha]
    exact serve_ne_fault _ _ _
  cases hb : s.busy with
  | false =>
    cases hc : s.commands with
    | nil => simp [step_eq_next hb hc]
    | cons c rest => exact hserved c rest hc (accepts_of_idle c hb)
  | true =>
    by_cases hno : noConstruct s
    · obtain ⟨slots, hslots⟩ := currentSlots_of_busy h hb
      simp [step_eq_resume hb hno, resume, hslots]
    · simp only [noConstruct, not_forall, not_not] at hno
      obtain ⟨cfg, transport, rest, hc⟩ := hno
      exact hserved _ rest hc rfl

/-- Settles O47. -/
theorem busyBlockLetsCommandsWait : Obligations.BusyBlockLetsCommandsWait := by
  unfold Obligations.BusyBlockLetsCommandsWait
  intro s hbusy hno
  have hresume := step_eq_resume hbusy hno
  refine ⟨hresume, fun t hstep => ?_⟩
  obtain ⟨slots, hslots, rfl⟩ := resume_next (hresume ▸ hstep)
  obtain ⟨hcfg, htransport, -, hcmds⟩ := runOp_frame slots s
  obtain ⟨new, hnew⟩ := runOp_trace_prefix slots s
  refine ⟨hcmds, hcfg, htransport, ?_, new, hnew.symm⟩
  obtain ⟨hop, -⟩ | ⟨hop, -⟩ := currentSlots_cases hslots <;> simp [hop]

/-- What decodes from the bits of a table word decodes from the bytes that present it. -/
theorem decode_of_decodeTableWord {nbits w : Nat} {i : Instr} (h : decodeTableWord nbits w = some i) :
    ∃ left, decode (tableWordBytes nbits w) = .ok (i, left) := by
  unfold decodeTableWord at h
  cases hd : decode (tableWordBytes nbits w) with
  | ok x => obtain ⟨j, left⟩ := x; simp only [hd, Option.some.injEq] at h; exact ⟨left, by rw [h]⟩
  | error e => simp [hd] at h

/-- Settles O46. -/
theorem stepRunsTheNextInstruction : Obligations.StepRunsTheNextInstruction := by
  unfold Obligations.StepRunsTheNextInstruction
  have hword : ∀ (s : State) (i : Instr) (lo hi : Byte) (rest : List Command) (left : List Byte),
      s.busy = false → s.commands = .word lo hi :: rest → decode [lo, hi] = .ok (i, left) →
      step s = exec i { s with commands := rest } := by
    intro s i lo hi rest left hidle hc hd
    rw [step_eq_serve hc (accepts_of_idle _ hidle)]
    exact execWord_of_decode hd _
  refine ⟨?call, hword, ?placed, ?init, ?nothing⟩
  case call => intro s i rest hidle hc; exact step_eq_serve hc (accepts_of_idle _ hidle)
  case placed =>
    intro s i nbits w h
    obtain ⟨left, hd⟩ := decode_of_decodeTableWord h
    exact hword (s.withFetchWord nbits w) i _ _ s.commands left rfl rfl hd
  case init => intro s rest hidle hc; exact step_eq_serve hc (accepts_of_idle _ hidle)
  case nothing => exact fun s hidle hc => step_eq_next hidle hc

/-! ### `init_lcd` looked at in the middle -/

/-- If the writes from an event on are acknowledged, the event goes through, and so do those after it. -/
theorem acked_through {slot : Slot} {es : List Event} {s : State}
    (h : acked (writeCount (slot.event :: es)) s) :
    eventAcked slot.event (beginSlot slot s) ∧
      acked (writeCount es) (eventThrough slot.event (beginSlot slot s)) := by
  cases he : slot.event with
  | wait d => exact ⟨trivial, acked_congr (s := s) rfl (by simpa [he] using h)⟩
  | write b =>
    rw [he, writeCount_write] at h
    obtain ⟨hnext, hlater⟩ := acked_succ h
    exact ⟨hnext, hlater _ rfl⟩

/-- A run whose writes are acknowledged stands, at a pause, in the event the pause names. -/
theorem runSlots_pauseAt {xs : List Slot} (slot : Slot) (ys : List Slot) (clocks : Nat) {s : State}
    (h : acked (writeCount (slotEvents xs)) s) :
    runSlots (xs ++ slot :: ys) (some { events := xs.length, clocks := clocks }) s =
      passClocks clocks slot ys (beginSlot slot (throughSlots xs s)) := by
  induction xs generalizing s with
  | nil => rfl
  | cons x xs ih =>
    obtain ⟨hx, hxs⟩ := acked_through h
    have hrun : runSlots (x :: xs ++ slot :: ys) (some { events := (x :: xs).length, clocks := clocks }) s =
        match finishSlot x (beginSlot x s) with
        | .continues s' => runSlots (xs ++ slot :: ys) (some { events := xs.length, clocks := clocks }) s'
        | .aborted s' => s' := rfl
    rw [hrun, finishSlot_through hx]
    exact ih hxs

/-- No clock passes, and nothing happens. -/
theorem passClocks_zero (slot : Slot) (rest : List Slot) (s : State) :
    passClocks 0 slot rest (beginSlot slot s) = beginSlot slot s := by
  cases he : slot.event with
  | write b => simp [passClocks, he]
  | wait d =>
    have hpos : (beginSlot slot s).timer ≠ 0 := by
      rw [beginSlot_timer, he]; exact (timerAtStart_wait_pos d _).ne'
    simp only [passClocks, he, timerClocks]
    exact if_neg hpos

theorem acked_of_le {m n : Nat} (hmn : m ≤ n) {s : State} (h : acked n s) : acked m s :=
  fun a ha => h a ((List.take_subset_take_left _ hmn) ha)

theorem writeCount_take_le (t : List Event) (n : Nat) : writeCount (t.take n) ≤ writeCount t := by
  conv_rhs => rw [← List.take_append_drop n t, writeCount_append]
  exact Nat.le_add_right _ _

theorem executeEvents_eightBit (T : Durations) (backlight : Bool) (r : InstrRecord) :
    executeEvents T .eightBit backlight r =
      pulse T (hiByte r ||| backlightBits backlight) ++ [.wait r.completionDelay] := rfl

theorem executeEvents_fourBit (T : Durations) (backlight : Bool) (r : InstrRecord) :
    executeEvents T .fourBit backlight r =
      pulse T (hiByte r ||| backlightBits backlight) ++ pulse T (loByte r ||| backlightBits backlight) ++
        [.wait r.completionDelay] := rfl

/-- The nibble bytes of the user's function-set (R166, R168). -/
theorem userFunctionSet_nibbles {cfg : Cfg} (h : invalidPair cfg.lines cfg.font = false) (delay : Nat) :
    hiByte (mkRecord opFunctionSet (flagBitWidth .fourBit ||| flagLineCount cfg.lines ||| flagFont cfg.font)
      false delay) = 0x20 ∧
    loByte (mkRecord opFunctionSet (flagBitWidth .fourBit ||| flagLineCount cfg.lines ||| flagFont cfg.font)
      false delay) = userLowNibble cfg := by
  rw [hiByte_mkRecord, loByte_mkRecord]
  cases hl : cfg.lines <;> cases hf : cfg.font <;> simp only [userLowNibble, hl, hf]
  case twoLines.font10x5 => simp [hl, hf, invalidPair] at h
  all_goals decide

/-- The events of `init_lcd` under a valid configuration are those of the table of R168: the script expanded,
each `execute` the pulses of its record's nibble bytes. -/
theorem initEvents_eq_handshake (T : Durations) {cfg : Cfg} (h : invalidPair cfg.lines cfg.font = false) :
    initEvents T cfg = handshake T (backlightBits cfg.backlight) (userLowNibble cfg) := by
  have hshake : invalidPair .oneLine .font8x5 = false := rfl
  obtain ⟨hhi, hlo⟩ := userFunctionSet_nibbles h T.short
  simp only [initEvents, initSlots, initScript, expandScript, buildFunctionSet_valid T hshake,
    buildFunctionSet_valid T h, buildDisplayOnOff, buildClearDisplay, buildEntryModeSet,
    List.map_append, List.map_cons, List.map_nil, map_event_initExecute, executeEvents_eightBit,
    executeEvents_fourBit, hhi, hlo, hiByte_mkRecord, loByte_mkRecord, completionDelay_mkRecord]
  simp [handshake, shakeOnce, opFunctionSet, opDisplayOnOff, opClearDisplay, opEntryModeSet, flagBitWidth,
    flagLineCount, flagFont, flagDisplay, flagCursor, flagBlinking, flagIncrement, flagShift, dataMask]

theorem writeCount_handshake (T : Durations) (bl lo : Byte) : writeCount (handshake T bl lo) = 36 := by
  rw [writeCount, writes_handshake]; rfl

/-- The mode of a state that stands at event `k` of a run that began with `slots`. -/
theorem bitMode_standing {slots : List Slot} {k : Nat} (hk : k < slots.length) (u : State) :
    (beginSlot slots[k] (throughSlots (slots.take k) u)).bitMode =
      modeAfter (slots.take (k + 1)) u.bitMode := by
  rw [beginSlot_bitMode, throughSlots_bitMode, modeAfter, List.take_succ_eq_append_getElem hk, List.any_append]
  cases hf : slots[k].flip <;> simp [hf]

/-- An operation that starts with a pause before event `k` stands there. -/
theorem runOp_pauseAt {slots : List Slot} {k : Nat} (hk : k < slots.length) {u : State}
    (hstart : u.seq.k = 0) (hpause : u.pauses = [{ events := k, clocks := 0 }])
    (h : acked (writeCount (slotEvents (slots.take k))) u) :
    runOp slots u = beginSlot slots[k] (throughSlots (slots.take k) { u with pauses := [] }) := by
  have hsplit : slots = slots.take k ++ slots[k] :: slots.drop (k + 1) := by
    rw [← List.drop_eq_getElem_cons hk, List.take_append_drop]
  have hrun := runSlots_pauseAt slots[k] (slots.drop (k + 1)) 0 (s := { u with pauses := [] }) h
  rw [List.length_take_of_le hk.le, ← hsplit, passClocks_zero] at hrun
  rw [← hrun, runOp, hstart, hpause]
  rfl

/-- Settles O40: with the writes acknowledged the run stands at event `k`, and the flip comes with event 27
alone. -/
theorem initInProgress : Obligations.InitInProgress := by
  unfold Obligations.InitInProgress
  intro s k huninit hmode hpair hpause hacked hk
  have hlt : k < (initSlots s.durations s.cfg).length := by rwa [initSlots_length hpair]
  have hevents : slotEvents ((initSlots s.durations s.cfg).take k) =
      (handshake s.durations (lit s) (userLowNibble s.cfg)).take k :=
    List.map_take.trans (congrArg (List.take k) (initEvents_eq_handshake s.durations hpair))
  have hfew : writeCount (slotEvents ((initSlots s.durations s.cfg).take k)) ≤ 36 := by
    rw [hevents, ← writeCount_handshake s.durations (lit s) (userLowNibble s.cfg)]
    exact writeCount_take_le _ k
  have hrun : execInit s = .next (runOp (initSlots s.durations s.cfg) (acceptedInit s)) := by
    simp [execInit, huninit, hpair, acceptedInit]
  rw [runOp_pauseAt hlt (u := acceptedInit s) rfl hpause (acked_of_le hfew hacked)] at hrun
  refine ⟨_, hrun, by simp [acceptedInit], by simp [acceptedInit], ?_, ?_, ?_, by simp [acceptedInit],
    by simp [acceptedInit]⟩
  · simp [acceptedInit, List.length_take_of_le hlt.le]
  · have hstart : (acceptedInit s).bitMode = if 0 ≤ 26 then .eightBit else .fourBit := hmode
    have hflip := initSlots_modeAfter (T := s.durations) hpair 0 k
    rw [List.drop_zero, Nat.zero_add, ← hstart] at hflip
    rw [bitMode_standing hlt]
    exact hflip
  · rw [beginSlot_trace, throughSlots_trace, hevents]
    rfl

end Sys2Proof.Machine

/-! The statements of spec/20_memory.md: what the display is given (R67), that a pause does not show (R62), and
which bytes a step may write (R60). -/

namespace Sys2Proof.Machine

/-! ### The nibbles of the instruction byte -/

theorem nibbles_append (b : Byte) : b.extractLsb' 4 4 ++ b.extractLsb' 0 4 = b :=
  BitVec.extractLsb'_append_extractLsb' (w := 4) (len := 4)

/-- The mask of R77 keeps the high nibble where it stands. -/
theorem and_dataMask (b : Byte) : b &&& dataMask = b.extractLsb' 4 4 ++ 0#4 := by
  have hmask : dataMask = BitVec.allOnes 4 ++ 0#4 := rfl
  conv_lhs => rw [← nibbles_append b, hmask, BitVec.and_append, BitVec.and_allOnes, BitVec.and_zero]

/-- The mask and shift of R78 bring the low nibble to where the display takes it. -/
theorem and_lowMask_shiftLeft (b : Byte) : (b &&& 0x0F) <<< 4 = b.extractLsb' 0 4 ++ 0#4 := by
  have hmask : (0x0F : Byte) = 0#4 ++ BitVec.allOnes 4 := rfl
  have hshift : ∀ low : Nibble, (0#4 ++ low) <<< 4 = low ++ 0#4 := by decide
  conv_lhs => rw [← nibbles_append b, hmask, BitVec.and_append, BitVec.and_allOnes, BitVec.and_zero]
  exact hshift _

theorem hiByte_eq (r : InstrRecord) :
    hiByte r = controlBits r ||| ((instrByte r).extractLsb' 4 4 ++ 0#4) := by
  rw [hiByte, and_dataMask]

theorem loByte_eq (r : InstrRecord) :
    loByte r = controlBits r ||| ((instrByte r).extractLsb' 0 4 ++ 0#4) := by
  rw [loByte, and_lowMask_shiftLeft]

/-! ### What the display is given -/

/-- A nibble with the control bits of a record, as the display takes it; enable is not yet set. -/
theorem sampledByte_nibble (r : InstrRecord) (n : Nibble) :
    sampledByte (controlBits r ||| (n ++ 0#4)) = (r.registerSelect, r.readWrite, n) ∧
      (controlBits r ||| (n ++ 0#4)).getLsbD 2 = false := by
  have hlow : ∀ i < 4, (n ++ 0#4 : Byte).getLsbD i = false := by
    intro i hi
    simp [BitVec.getLsbD_append (x := n) (y := 0#4), hi]
  unfold sampledByte controlBits
  rw [BitVec.extractLsb'_or, BitVec.extractLsb'_append_eq_left]
  simp only [BitVec.getLsbD_or, hlow 0 (by decide), hlow 1 (by decide), hlow 2 (by decide)]
  cases r.registerSelect <;> cases r.readWrite <;> simp [rsBit, rwBit]

/-- The backlight and enable bits make no difference to what the display takes. -/
theorem sampledByte_or_backlight_or_enable (w : Byte) (backlight : Bool) :
    sampledByte (w ||| backlightBits backlight ||| 0x04) = sampledByte w := by
  cases backlight <;> simp [sampledByte, backlightBits, backlightBit, BitVec.extractLsb'_or]

@[simp] theorem sampled_append (xs ys : List Event) : sampled (xs ++ ys) = sampled xs ++ sampled ys := by
  simp [sampled]

@[simp] theorem sampled_wait (d : Nat) : sampled [.wait d] = [] := rfl

/-- A pulse gives the display its byte once. -/
theorem sampled_pulse (T : Durations) {w : Byte} (h : w.getLsbD 2 = false) :
    sampled (pulse T w) = [sampledByte (w ||| 0x04)] := by
  have hhigh : (w ||| 0x04).getLsbD 2 = true := by rw [BitVec.getLsbD_or, h]; rfl
  rw [sampled, writes_pulse]
  simp only [List.filter_cons, h, hhigh, List.filter_nil, if_true, Bool.false_eq_true, if_false,
    List.map_cons, List.map_nil]

/-- Transmitting a nibble gives the display RS, RW and the nibble. -/
theorem sampled_nibble (T : Durations) (backlight : Bool) (r : InstrRecord) (n : Nibble) :
    sampled (pulse T (controlBits r ||| (n ++ 0#4) ||| backlightBits backlight)) =
      [(r.registerSelect, r.readWrite, n)] := by
  obtain ⟨hsample, hlow⟩ := sampledByte_nibble r n
  have hlow' : (controlBits r ||| (n ++ 0#4) ||| backlightBits backlight).getLsbD 2 = false := by
    rw [BitVec.getLsbD_or, hlow]
    cases backlight <;> rfl
  rw [sampled_pulse T hlow', sampledByte_or_backlight_or_enable, hsample]

theorem sampled_executeEvents_eightBit (T : Durations) (backlight : Bool) (r : InstrRecord) :
    sampled (executeEvents T .eightBit backlight r) =
      [(r.registerSelect, r.readWrite, (instrByte r).extractLsb' 4 4)] := by
  rw [executeEvents_eightBit, sampled_append, sampled_wait, hiByte_eq, sampled_nibble]
  rfl

theorem sampled_executeEvents_fourBit (T : Durations) (backlight : Bool) (r : InstrRecord) :
    sampled (executeEvents T .fourBit backlight r) =
      [(r.registerSelect, r.readWrite, (instrByte r).extractLsb' 4 4),
       (r.registerSelect, r.readWrite, (instrByte r).extractLsb' 0 4)] := by
  rw [executeEvents_fourBit, sampled_append, sampled_append, sampled_wait, hiByte_eq, loByte_eq,
    sampled_nibble, sampled_nibble]
  rfl

/-- Settles O17: what any record gives the display, with RW clear. -/
theorem displayIsGivenTheNibbles : Obligations.DisplayIsGivenTheNibbles := by
  unfold Obligations.DisplayIsGivenTheNibbles
  intro T backlight r hwrite
  rw [sampled_executeEvents_eightBit, sampled_executeEvents_fourBit, hwrite]
  exact ⟨rfl, rfl⟩

/-! ### The low nibble -/

theorem eq_of_nibbles_eq {b c : Byte} (hhi : b.extractLsb' 4 4 = c.extractLsb' 4 4)
    (hlo : b.extractLsb' 0 4 = c.extractLsb' 0 4) : b = c := by
  rw [← nibbles_append b, hhi, hlo, nibbles_append]

/-- The control bits are RS and RW. -/
theorem controlBits_congr {r r' : InstrRecord} (hrs : r.registerSelect = r'.registerSelect)
    (hrw : r.readWrite = r'.readWrite) : controlBits r = controlBits r' := by
  rw [controlBits, controlBits, hrs, hrw]

/-- Settles O18: the high-nibble byte does not depend on the low nibble, and in FourBit the display is given
both nibbles, so the events determine the instruction byte. -/
theorem lowNibbleIsDiscardedInEightBit : Obligations.LowNibbleIsDiscardedInEightBit := by
  unfold Obligations.LowNibbleIsDiscardedInEightBit
  intro T backlight r r' hrs hrw hdelay hhi
  have hcontrol := controlBits_congr hrs hrw
  have hhiByte : hiByte r = hiByte r' := by rw [hiByte_eq, hiByte_eq, hcontrol, hhi]
  refine ⟨?eightBit, ?sameByte, ?sameEvents⟩
  case eightBit => rw [executeEvents_eightBit, executeEvents_eightBit, hhiByte, hdelay]
  case sameByte =>
    intro hevents
    have hsampled := congrArg sampled hevents
    rw [sampled_executeEvents_fourBit, sampled_executeEvents_fourBit] at hsampled
    have hlo : (instrByte r).extractLsb' 0 4 = (instrByte r').extractLsb' 0 4 := by
      injection hsampled with _ hlow
      simpa [hrs, hrw] using hlow
    exact eq_of_nibbles_eq hhi hlo
  case sameEvents =>
    intro hbyte
    have hloByte : loByte r = loByte r' := by rw [loByte_eq, loByte_eq, hcontrol, hbyte]
    rw [executeEvents_fourBit, executeEvents_fourBit, hhiByte, hloByte, hdelay]

/-! ### The bytes a step writes -/

/-- From `s` to `t` the trace has grown, and the bytes written meanwhile are legal. -/
def WritesLegally (backlight : Bool) (s t : State) : Prop :=
  ∃ new, t.trace = s.trace ++ new ∧ ∀ b ∈ writes new, LegalByte backlight b

theorem WritesLegally.of_same_trace {s t : State} (backlight : Bool) (h : t.trace = s.trace) :
    WritesLegally backlight s t :=
  ⟨[], by rw [h, List.append_nil], by simp⟩

/-- One event more, whose byte is legal if it is a write. -/
theorem WritesLegally.snoc {backlight : Bool} {s t u : State} {e : Event} (h : WritesLegally backlight s t)
    (htrace : u.trace = t.trace ++ [e]) (he : ∀ b ∈ writes [e], LegalByte backlight b) :
    WritesLegally backlight s u := by
  obtain ⟨new, hnew, hlegal⟩ := h
  refine ⟨new ++ [e], by rw [htrace, hnew, List.append_assoc], ?_⟩
  rw [writes_append]
  exact List.forall_mem_append.mpr ⟨hlegal, he⟩

/-- A run of lawful slots writes legal bytes only. -/
theorem runSlots_writesLegally {backlight : Bool} {slots : List Slot}
    (hslots : ∀ slot ∈ slots, slot.Lawful backlight) (p : Option Pause) (s : State) :
    WritesLegally backlight s (runSlots slots p s) := by
  apply runSlots_keeps (WritesLegally backlight s)
  case hbegin => exact fun slot _ u h => h
  case hwait => exact fun d u h => h.snoc rfl (by simp)
  case hack =>
    intro b hb u hu
    obtain ⟨slot, hs, he⟩ := List.mem_map.mp hb
    exact hu.snoc rfl (List.forall_mem_singleton.mpr ((hslots slot hs).byte b he))
  case hfail =>
    intro b taken report u h
    simpa [WritesLegally] using h
  case hdone => exact fun u h => h
  case htimer => exact fun t u h => h
  case h => exact .of_same_trace backlight rfl

theorem runOp_writesLegally {backlight : Bool} {slots : List Slot}
    (hslots : ∀ slot ∈ slots, slot.Lawful backlight) (s : State) :
    WritesLegally backlight s (runOp slots s) :=
  runSlots_writesLegally (fun slot hs => hslots slot (List.mem_of_mem_drop hs)) s.pauses.head?
    { s with pauses := s.pauses.tail }

/-- Accepting a command writes nothing. -/
theorem RunStart.trace {s u : State} {slots : List Slot} (h : RunStart s slots u) : u.trace = s.trace := by
  cases h <;> rfl

/-- Settles O55: only a run adds events, and from the invariant its slots are lawful. -/
theorem everyByteWrittenIsLegal : Obligations.EveryByteWrittenIsLegal := by
  unfold Obligations.EveryByteWrittenIsLegal
  intro s t h hstep
  show WritesLegally s.cfg.backlight s t
  cases step_effect hstep with
  | unchanged same => exact .of_same_trace _ (by rw [same])
  | constructed cfg transport rest _ result =>
    exact .of_same_trace _ (by rw [result, construct_trace, abandon_trace])
  | rejected e rest result => exact .of_same_trace _ (by rw [result, raise_trace])
  | ran u slots start result =>
    obtain ⟨hcfg, -, -, -, -⟩ := start.frame
    have hlawful := (start.running h).lawful
    rw [hcfg] at hlawful
    obtain ⟨new, hnew, hlegal⟩ := runOp_writesLegally hlawful u
    exact ⟨new, by rw [result, hnew, start.trace], hlegal⟩

/-! ### A run that pauses -/

/-- A state without a pause to come is what it is when they are taken out. -/
theorem with_pauses_nil {s : State} (h : s.pauses = []) : { s with pauses := [] } = s := by
  rw [← h]

/-- A run uses up one pause. -/
theorem runOp_pauses (slots : List Slot) (s : State) : (runOp slots s).pauses = s.pauses.tail := by
  obtain ⟨-, -, -, -, hpauses, -⟩ :=
    runSlots_frame (slots.drop s.seq.k) s.pauses.head? { s with pauses := s.pauses.tail }
  exact hpauses

theorem noConstruct_congr {s t : State} (h : t.commands = s.commands) (hno : noConstruct s) :
    noConstruct t :=
  fun cfg transport rest hc => hno cfg transport rest (h ▸ hc)

/-- A busy block to which no reset is presented runs the list it is in. -/
theorem step_eq_runOp {s : State} {slots : List Slot} (hbusy : s.busy = true) (hno : noConstruct s)
    (hcurrent : currentSlots s = some slots) : step s = .next (runOp slots s) := by
  rw [step_eq_resume hbusy hno, resume, hcurrent]

/-- A run that stops at a pause goes on, in the next step, to where it ends without the pause; one that does
not stop there has ended as without it. -/
theorem runOp_paused {slots : List Slot} {u : State} {p : Pause} (hcurrent : currentSlots u = some slots)
    (hbusy : u.busy = true) (hno : noConstruct u) (hp : u.pauses = [p]) :
    ((runOp slots u).busy = true → step (runOp slots u) = .next (runOp slots { u with pauses := [] })) ∧
    ((runOp slots u).busy = false → runOp slots u = runOp slots { u with pauses := [] }) := by
  have hrun : runOp slots u = runSlots (slots.drop u.seq.k) (some p) { u with pauses := [] } := by
    rw [runOp, hp]; rfl
  have hunpaused : runOp slots { u with pauses := [] } =
      runSlots (slots.drop u.seq.k) none { u with pauses := [] } := rfl
  obtain hsame | ⟨j, -, hseq, hstill, -, -, -, hrest⟩ :=
    runSlots_paused (slots.drop u.seq.k) p { u with pauses := [] }
  · rw [← hrun, ← hunpaused] at hsame
    obtain ⟨hended, -⟩ := runSlots_none_ended (slots.drop u.seq.k) { u with pauses := [] }
    rw [← hunpaused, ← hsame] at hended
    exact ⟨fun hb => by simp [hended] at hb, fun _ => hsame⟩
  · obtain ⟨hcfg, -, hdur, hcmds⟩ := runOp_frame slots u
    have hpauses : (runOp slots u).pauses = [] := by rw [runOp_pauses, hp]; rfl
    rw [← hrun] at hseq hstill hrest
    generalize ht : runOp slots u = t at *
    have hb : t.busy = true := hstill.trans hbusy
    have hslots : currentSlots t = some slots :=
      (currentSlots_congr (by rw [hseq]) hcfg hdur (ht ▸ runOp_exec hcurrent)).trans hcurrent
    have hgo : runOp slots t = runOp slots { u with pauses := [] } := by
      rw [runOp, hpauses, List.tail_nil, with_pauses_nil hpauses, hseq, hunpaused, ← hrest, List.drop_drop]
      rfl
    exact ⟨fun _ => hgo ▸ step_eq_runOp hb (noConstruct_congr hcmds hno) hslots,
      fun hidle => by simp [hb] at hidle⟩

/-- How a command begins, whatever pauses are to come: it ends with an error at once, or runs a list of
events. -/
inductive Begins (cmd : State → StepOutcome) (s : State) : Prop where
  | rejected (e : CmdError)
      (answer : ∀ ps, cmd { s with pauses := ps } = .next (raise e { s with pauses := ps }))
  | runs (slots : List Slot) (u : State) (current : currentSlots u = some slots) (busy : u.busy = true)
      (commands : u.commands = s.commands)
      (answer : ∀ ps, cmd { s with pauses := ps } = .next (runOp slots { u with pauses := ps }))

theorem exec_begins (i : Instr) (s : State) : Begins (exec i) s := by
  by_cases hphase : s.phase = .faulted
  · exact .rejected (.sequenceError s.phase) (fun ps => by rw [exec_eq]; exact if_pos hphase)
  · cases hb : build s.durations i with
    | error e => exact .rejected e (fun ps => by rw [exec_eq, hb, execBuilt, if_neg hphase])
    | ok r =>
      refine .runs (recordSlots r s) (acceptedExec r s) rfl rfl rfl (fun ps => ?_)
      rw [exec_eq, hb, execBuilt, if_neg hphase]
      rfl

theorem execInit_begins (s : State) : Begins execInit s := by
  by_cases hphase : s.phase = .uninitialized
  · cases hpair : invalidPair s.cfg.lines s.cfg.font with
    | true =>
      exact .rejected (.invalidConfiguration s.cfg.lines s.cfg.font)
        (fun ps => by simp [execInit, hphase, hpair])
    | false =>
      refine .runs (initSlots s.durations s.cfg) (acceptedInit s) rfl rfl rfl (fun ps => ?_)
      simp only [execInit, hphase, hpair]
      rfl
  · exact .rejected (.sequenceError s.phase) (fun ps => by simp [execInit, hphase])

/-- Where a command that begins an operation pauses makes no difference to where it ends. -/
theorem Begins.paused {cmd : State → StepOutcome} {s t u : State} {p : Pause} (h : Begins cmd s)
    (hidle : s.busy = false) (hno : noConstruct s) (hp : s.pauses = [p]) (ht : cmd s = .next t)
    (hu : cmd { s with pauses := [] } = .next u) :
    (t.busy = true → step t = .next u) ∧ (t.busy = false → { t with pauses := [] } = u) := by
  have hs : cmd { s with pauses := [p] } = .next t := by rw [← hp]; exact ht
  cases h with
  | rejected e answer =>
    rw [answer, Host.Outcome.next.injEq] at hs hu
    subst hs hu
    exact ⟨fun hb => by simp [hidle] at hb, fun _ => rfl⟩
  | runs slots v current busy commands answer =>
    rw [answer, Host.Outcome.next.injEq] at hs hu
    obtain ⟨hstops, hends⟩ := runOp_paused (u := { v with pauses := [p] }) (slots := slots) current busy
      (noConstruct_congr commands hno) rfl
    rw [hs] at hstops hends
    subst hu
    refine ⟨hstops, fun hb => ?_⟩
    rw [hends hb]
    exact with_pauses_nil (runOp_pauses slots { v with pauses := [] })

/-- Settles O48: an instruction and `INIT` begin with a run or an error, and a busy block goes on with one. -/
theorem pausedRunEndsTheSame : Obligations.PausedRunEndsTheSame := by
  unfold Obligations.PausedRunEndsTheSame
  intro s p hno hp
  refine ⟨?instruction, ?init, ?resumed⟩
  case instruction => exact fun i t u hidle ht hu => (exec_begins i s).paused hidle hno hp ht hu
  case init => exact fun t u hidle ht hu => (execInit_begins s).paused hidle hno hp ht hu
  case resumed =>
    intro t u hbusy ht hu
    obtain ⟨slots, hslots, rfl⟩ := resume_next (step_eq_resume hbusy hno ▸ ht)
    rw [step_eq_runOp (s := { s with pauses := [] }) hbusy hno hslots, Host.Outcome.next.injEq] at hu
    exact hu ▸ runOp_paused hslots hbusy hno hp

end Sys2Proof.Machine

/-! The statements of spec/30_encoding.md: the encoder and the decoder through one table of words (R79, R80),
the words of the factory (R85 to R87), the delay of a record (R81) and the split into nibbles (R78, R82). -/

namespace Sys2Proof.Machine

/-! ### Words put together of fields -/

theorem exists_append {m n : Nat} (w : BitVec (m + n)) : ∃ (hi : BitVec m) (lo : BitVec n), w = hi ++ lo :=
  ⟨_, _, BitVec.extractLsb'_append_extractLsb'.symm⟩

theorem append_inj {m n : Nat} {a b : BitVec m} {c d : BitVec n} (h : a ++ c = b ++ d) : a = b ∧ c = d := by
  have hhi := congrArg (BitVec.extractLsb' n m) h
  have hlo := congrArg (BitVec.extractLsb' 0 n) h
  rw [BitVec.extractLsb'_append_eq_left, BitVec.extractLsb'_append_eq_left] at hhi
  rw [BitVec.extractLsb'_append_eq_right, BitVec.extractLsb'_append_eq_right] at hlo
  exact ⟨hhi, hlo⟩

theorem toNat_append_eq_add {m n : Nat} (hi : BitVec m) (lo : BitVec n) :
    (hi ++ lo).toNat = hi.toNat * 2 ^ n + lo.toNat := by
  rw [BitVec.toNat_append, ← Nat.shiftLeft_add_eq_or_of_lt lo.isLt, Nat.shiftLeft_eq]

/-- Masked down to its leading bits a word shows what it begins with. -/
theorem and_leadingMask_iff {m n : Nat} {w : BitVec (m + n)} {p : BitVec m} :
    w &&& (BitVec.allOnes m ++ 0#n) = p ++ 0#n ↔ ∃ f : BitVec n, w = p ++ f := by
  obtain ⟨a, f, rfl⟩ := exists_append w
  rw [BitVec.and_append, BitVec.and_allOnes, BitVec.and_zero, BitVec.append_left_inj]
  exact ⟨fun h => ⟨f, by rw [h]⟩, fun ⟨_, h⟩ => (append_inj h).1⟩

/-- Masked down to its bits at both ends a word shows what it begins and ends with. -/
theorem and_middleMask_iff {m n k : Nat} {w : BitVec (m + n + k)} {p : BitVec m} {q : BitVec k} :
    w &&& (BitVec.allOnes m ++ 0#n ++ BitVec.allOnes k) = p ++ 0#n ++ q ↔
      ∃ f : BitVec n, w = p ++ f ++ q := by
  obtain ⟨a, b, rfl⟩ := exists_append w
  rw [BitVec.and_append, BitVec.and_allOnes]
  constructor
  · intro h
    obtain ⟨hleading, rfl⟩ := append_inj h
    obtain ⟨f, rfl⟩ := and_leadingMask_iff.mp hleading
    exact ⟨f, rfl⟩
  · rintro ⟨f, h⟩
    obtain ⟨hleading, rfl⟩ := append_inj h
    rw [and_leadingMask_iff.mpr ⟨f, hleading⟩]

/-- The words that begin with `p` are those from `p` followed by zeros up to `p` followed by ones. -/
theorem between_iff {m n : Nat} {w : BitVec (m + n)} {p : BitVec m} :
    p ++ 0#n ≤ w ∧ w ≤ p ++ BitVec.allOnes n ↔ ∃ f : BitVec n, w = p ++ f := by
  have hpos : 0 < 2 ^ n := Nat.two_pow_pos n
  simp only [BitVec.le_def, toNat_append_eq_add, BitVec.toNat_zero, BitVec.toNat_allOnes]
  constructor
  · obtain ⟨a, f, rfl⟩ := exists_append w
    rw [toNat_append_eq_add]
    rintro ⟨hlow, hhigh⟩
    have hf := f.isLt
    have hle : p.toNat < a.toNat + 1 := Nat.lt_of_mul_lt_mul_right (a := 2 ^ n) (by rw [Nat.add_mul]; omega)
    have hge : a.toNat < p.toNat + 1 := Nat.lt_of_mul_lt_mul_right (a := 2 ^ n) (by rw [Nat.add_mul]; omega)
    have ha : a = p := BitVec.eq_of_toNat_eq (by omega)
    exact ⟨f, by rw [ha]⟩
  · rintro ⟨f, rfl⟩
    have hf := f.isLt
    rw [toNat_append_eq_add]
    omega

/-! ### The table of words -/

/-- The encoding table (R79, R80): the call and its word. RS, RW and the opcode's bit are the leading bits,
and the operands are the field after them. The call R86 rejects is in the table, as it is in the decoder's
(log entry 21). -/
inductive EncodesAs : Instr → InstrWord → Prop where
  | writeData (f : BitVec 8) : EncodesAs (.writeData f.toNat) (2#2 ++ f)
  | clearDisplay : EncodesAs .clearDisplay 0x001
  | returnHome : EncodesAs .returnHome 0x002
  | entryModeSet (f : BitVec 2) :
    EncodesAs (.entryModeSet (entryDirectionOfBit (f.getLsbD 1)) (entryShiftOfBit (f.getLsbD 0))) (1#8 ++ f)
  | displayOnOff (f : BitVec 3) :
    EncodesAs (.displayOnOff (switchOfBit (f.getLsbD 2)) (switchOfBit (f.getLsbD 1))
      (switchOfBit (f.getLsbD 0))) (1#7 ++ f)
  | cursorOrDisplayShift (f : BitVec 2) :
    EncodesAs (.cursorOrDisplayShift (shiftTargetOfBit (f.getLsbD 1)) (shiftDirectionOfBit (f.getLsbD 0)))
      (1#6 ++ f ++ 0#2)
  | functionSet (f : BitVec 3) :
    EncodesAs (.functionSet (bitWidthOfBit (f.getLsbD 2)) (lineCountOfBit (f.getLsbD 1))
      (fontOfBit (f.getLsbD 0))) (1#5 ++ f ++ 0#2)
  | setCgramAddress (f : BitVec 6) : EncodesAs (.setCgramAddress f.toNat) (1#4 ++ f)
  | setDdramAddress (f : BitVec 7) : EncodesAs (.setDdramAddress f.toNat) (1#3 ++ f)

/-! ### The encoder and the table -/

/-- An operand's byte below the opcode's bit is the field after it. -/
theorem or_ofInt_eq_append {m n : Nat} (p : BitVec m) (f : BitVec n) :
    (p ++ 0#n) ||| BitVec.ofInt (m + n) f.toNat = p ++ f := by
  have hfield : BitVec.ofInt (m + n) f.toNat = 0#m ++ f := by
    apply BitVec.eq_of_toNat_eq
    rw [BitVec.ofInt_natCast, BitVec.toNat_ofNat, toNat_append_eq_add, BitVec.toNat_zero, Nat.zero_mul,
      Nat.zero_add, Nat.mod_eq_of_lt (f.isLt.trans_le (Nat.pow_le_pow_right (by decide) (by omega)))]
  rw [hfield, BitVec.or_append, BitVec.or_zero, BitVec.zero_or]

theorem encode_writeData (f : BitVec 8) : encode (.writeData f.toNat) = 2#2 ++ f := by
  simp [encode, Instr.opcode, opWriteData, Instr.parameterBits, Instr.rsBit]

theorem encode_setCgramAddress (f : BitVec 6) : encode (.setCgramAddress f.toNat) = 1#4 ++ f := by
  have hopcode : opSetCgramAddress = 1#2 ++ 0#6 := rfl
  rw [encode, Instr.rsBit, Instr.opcode, Instr.parameterBits, hopcode, or_ofInt_eq_append]
  exact BitVec.append_assoc'

theorem encode_setDdramAddress (f : BitVec 7) : encode (.setDdramAddress f.toNat) = 1#3 ++ f := by
  have hopcode : opSetDdramAddress = 1#1 ++ 0#7 := rfl
  rw [encode, Instr.rsBit, Instr.opcode, Instr.parameterBits, hopcode, or_ofInt_eq_append]
  exact BitVec.append_assoc'

/-- The encoder answers as the table says. -/
theorem EncodesAs.encode_eq {i : Instr} {w : InstrWord} (h : EncodesAs i w) : encode i = w := by
  cases h with
  | clearDisplay | returnHome => rfl
  | entryModeSet f | displayOnOff f | cursorOrDisplayShift f | functionSet f => revert f; decide
  | writeData f => exact encode_writeData f
  | setCgramAddress f => exact encode_setCgramAddress f
  | setDdramAddress f => exact encode_setDdramAddress f

/-! ### The decoder and the table -/

theorem covers_iff {r : DecodeRow} {w : InstrWord} : r.covers w = true ↔ w &&& r.mask = r.pattern :=
  beq_iff_eq

/-- The patterns of two rows differ in a bit that both masks fix. -/
abbrev RowsApart (r r' : DecodeRow) : Prop := r.pattern &&& r'.mask ≠ r'.pattern &&& r.mask

theorem decodeTable_apart : decodeTable.Pairwise RowsApart := by decide

/-- Rows set apart have no word in common. -/
theorem RowsApart.covers_eq_false {r r' : DecodeRow} {w : InstrWord} (hapart : RowsApart r r')
    (h : r'.covers w = true) : r.covers w = false := by
  rw [Bool.eq_false_iff, Ne, covers_iff]
  rw [covers_iff] at h
  intro h'
  apply hapart
  rw [← h, ← h', BitVec.and_assoc, BitVec.and_assoc, BitVec.and_comm r.mask]

/-- The row that covers a word is the one found. -/
theorem find?_covers {rows : List DecodeRow} {r : DecodeRow} {w : InstrWord}
    (hrows : rows.Pairwise RowsApart) (hr : r ∈ rows) (h : r.covers w = true) :
    rows.find? (fun r => r.covers w) = some r := by
  obtain ⟨before, after, rfl⟩ := List.append_of_mem hr
  obtain ⟨-, -, hapart⟩ := List.pairwise_append.mp hrows
  rw [List.find?_eq_some_iff_append]
  refine ⟨h, before, after, rfl, fun r' hr' => ?_⟩
  rw [RowsApart.covers_eq_false (hapart r' hr' r List.mem_cons_self) h]
  rfl

/-- Every row fixes bit 8 as 0 (R30). -/
theorem bit8_of_covers {r : DecodeRow} {w : InstrWord} (hr : r ∈ decodeTable) (h : r.covers w = true) :
    w.getLsbD 8 = false := by
  have hrow : ∀ r ∈ decodeTable, r.mask.getLsbD 8 = true ∧ r.pattern.getLsbD 8 = false := by decide
  obtain ⟨hmask, hpattern⟩ := hrow r hr
  rw [covers_iff] at h
  rw [← h, BitVec.getLsbD_and, hmask, Bool.and_true] at hpattern
  exact hpattern

theorem decodeWord_of_covers {r : DecodeRow} {w : InstrWord} (hr : r ∈ decodeTable) (h : r.covers w = true) :
    decodeWord w = .ok (r.build w) := by
  rw [decodeWord, bit8_of_covers hr h, find?_covers decodeTable_apart hr h]
  rfl

theorem covers_of_decodeWord {w : InstrWord} {i : Instr} (h : decodeWord w = .ok i) :
    ∃ r ∈ decodeTable, r.covers w = true := by
  unfold decodeWord at h
  split at h
  · cases h
  · split at h
    next r hfind => exact ⟨r, List.mem_of_find?_eq_some hfind, (List.find?_eq_some_iff_append.mp hfind).1⟩
    next => cases h

/-- A row with a numeric operand reads it from the low bits. -/
theorem decodeWord_operand {n : Nat} {r : DecodeRow} {w : InstrWord} {f : BitVec n} {call : Int → Instr}
    (hr : r ∈ decodeTable) (h : r.covers w = true) (hbuild : r.build w = call (operandOfWord w n))
    (hfield : w.extractLsb' 0 n = f) : decodeWord w = .ok (call f.toNat) := by
  rw [decodeWord_of_covers hr h, hbuild, operandOfWord, hfield]

/-- A word decodes to what the table says. -/
theorem EncodesAs.decodeWord_eq {i : Instr} {w : InstrWord} (h : EncodesAs i w) : decodeWord w = .ok i := by
  cases h with
  | clearDisplay | returnHome => decide
  | entryModeSet f | displayOnOff f | cursorOrDisplayShift f | functionSet f => revert f; decide
  | writeData f =>
    have hcovers : decodeTable[0].covers (2#2 ++ f) = true :=
      covers_iff.mpr ((and_leadingMask_iff (p := 2#2)).mpr ⟨f, rfl⟩)
    exact decodeWord_operand (List.getElem_mem _) hcovers rfl BitVec.extractLsb'_append_eq_right
  | setCgramAddress f =>
    have hcovers : decodeTable[7].covers (1#4 ++ f) = true :=
      covers_iff.mpr ((and_leadingMask_iff (p := 1#4)).mpr ⟨f, rfl⟩)
    exact decodeWord_operand (List.getElem_mem _) hcovers rfl BitVec.extractLsb'_append_eq_right
  | setDdramAddress f =>
    have hcovers : decodeTable[8].covers (1#3 ++ f) = true :=
      covers_iff.mpr ((and_leadingMask_iff (p := 1#3)).mpr ⟨f, rfl⟩)
    exact decodeWord_operand (List.getElem_mem _) hcovers rfl BitVec.extractLsb'_append_eq_right

/-- The words a row covers are those of its instruction. -/
theorem exists_encodesAs_of_covers {r : DecodeRow} {w : InstrWord} (hr : r ∈ decodeTable)
    (h : r.covers w = true) : ∃ i, EncodesAs i w := by
  rw [covers_iff] at h
  simp only [decodeTable, List.mem_cons, List.not_mem_nil, or_false] at hr
  obtain rfl | rfl | rfl | rfl | rfl | rfl | rfl | rfl | rfl := hr
  · obtain ⟨f, rfl⟩ := (and_leadingMask_iff (n := 8) (p := 2#2)).mp h
    exact ⟨_, .writeData f⟩
  · obtain rfl : w = 0x001 := BitVec.and_allOnes.symm.trans h
    exact ⟨_, .clearDisplay⟩
  · obtain rfl : w = 0x002 := BitVec.and_allOnes.symm.trans h
    exact ⟨_, .returnHome⟩
  · obtain ⟨f, rfl⟩ := (and_leadingMask_iff (n := 2) (p := 1#8)).mp h
    exact ⟨_, .entryModeSet f⟩
  · obtain ⟨f, rfl⟩ := (and_leadingMask_iff (n := 3) (p := 1#7)).mp h
    exact ⟨_, .displayOnOff f⟩
  · obtain ⟨f, rfl⟩ := (and_middleMask_iff (n := 2) (p := 1#6) (q := 0#2)).mp h
    exact ⟨_, .cursorOrDisplayShift f⟩
  · obtain ⟨f, rfl⟩ := (and_middleMask_iff (n := 3) (p := 1#5) (q := 0#2)).mp h
    exact ⟨_, .functionSet f⟩
  · obtain ⟨f, rfl⟩ := (and_leadingMask_iff (n := 6) (p := 1#4)).mp h
    exact ⟨_, .setCgramAddress f⟩
  · obtain ⟨f, rfl⟩ := (and_leadingMask_iff (n := 7) (p := 1#3)).mp h
    exact ⟨_, .setDdramAddress f⟩

/-- The decoder answers with nothing but what the table says. -/
theorem encodesAs_of_decodeWord {i : Instr} {w : InstrWord} (h : decodeWord w = .ok i) : EncodesAs i w := by
  obtain ⟨r, hr, hcovers⟩ := covers_of_decodeWord h
  obtain ⟨i', htable⟩ := exists_encodesAs_of_covers hr hcovers
  obtain rfl : i = i' := Except.ok.inj (h.symm.trans htable.decodeWord_eq)
  exact htable

/-! ### The well-formed calls -/

/-- An operand in range is the value of a field. -/
theorem exists_field {x : Int} (n : Nat) (h0 : 0 ≤ x) (h1 : x < 2 ^ n) : ∃ f : BitVec n, x = f.toNat := by
  obtain ⟨v, rfl⟩ := Int.eq_ofNat_of_zero_le h0
  exact ⟨BitVec.ofNat n v, by rw [BitVec.toNat_ofNat, Nat.mod_eq_of_lt (by exact_mod_cast h1)]⟩

/-- Every well-formed call is in the table, with the word the encoder gives it. -/
theorem encodesAs_encode {i : Instr} (h : i.wellFormed = true) : EncodesAs i (encode i) := by
  cases i with
  | clearDisplay => exact .clearDisplay
  | returnHome => exact .returnHome
  | entryModeSet dir shift =>
    have hfield := EncodesAs.entryModeSet ((encode (.entryModeSet dir shift)).extractLsb' 0 2)
    cases dir <;> cases shift <;> exact hfield
  | displayOnOff display cursor blinking =>
    have hfield := EncodesAs.displayOnOff ((encode (.displayOnOff display cursor blinking)).extractLsb' 0 3)
    cases display <;> cases cursor <;> cases blinking <;> exact hfield
  | cursorOrDisplayShift target direction =>
    have hfield :=
      EncodesAs.cursorOrDisplayShift ((encode (.cursorOrDisplayShift target direction)).extractLsb' 2 2)
    cases target <;> cases direction <;> exact hfield
  | functionSet bitWidth lineCount font =>
    have hfield := EncodesAs.functionSet ((encode (.functionSet bitWidth lineCount font)).extractLsb' 2 3)
    cases bitWidth <;> cases lineCount <;> cases font <;> exact hfield
  | writeData x =>
    obtain ⟨h0, h1⟩ := of_decide_eq_true h
    obtain ⟨f, rfl⟩ := exists_field 8 h0 (by omega)
    exact encode_writeData f ▸ .writeData f
  | setCgramAddress x =>
    obtain ⟨h0, h1⟩ := of_decide_eq_true h
    obtain ⟨f, rfl⟩ := exists_field 6 h0 (by omega)
    exact encode_setCgramAddress f ▸ .setCgramAddress f
  | setDdramAddress x =>
    obtain ⟨h0, h1⟩ := of_decide_eq_true h
    obtain ⟨f, rfl⟩ := exists_field 7 h0 (by omega)
    exact encode_setDdramAddress f ▸ .setDdramAddress f

/-- A call in the table is well formed, or its word is one of the two of R86. -/
theorem EncodesAs.wellFormed_or {i : Instr} {w : InstrWord} (h : EncodesAs i w) :
    i.wellFormed = true ∨ w = 0x02C ∨ w = 0x03C := by
  cases h with
  | clearDisplay | returnHome | entryModeSet f | displayOnOff f | cursorOrDisplayShift f => exact .inl rfl
  | functionSet f => revert f; decide
  | writeData f | setCgramAddress f | setDdramAddress f =>
    have hf := f.isLt
    exact .inl (decide_eq_true (by omega))

/-- The words of the well-formed calls are in the list of R85. -/
theorem EncodesAs.factoryWord_eq {i : Instr} {w : InstrWord} (h : EncodesAs i w) (hwf : i.wellFormed = true) :
    factoryWord w = true := by
  cases h with
  | clearDisplay | returnHome => decide
  | entryModeSet f | displayOnOff f | cursorOrDisplayShift f | functionSet f => revert f; decide
  | setCgramAddress f =>
    have hrange : 0x040 ≤ (1#4 ++ f : InstrWord) ∧ 1#4 ++ f ≤ 0x07F :=
      (between_iff (p := 1#4)).mpr ⟨f, rfl⟩
    simp only [factoryWord, hrange, decide_true, Bool.and_self, Bool.or_true, Bool.true_or]
  | setDdramAddress f =>
    have hrange : 0x080 ≤ (1#3 ++ f : InstrWord) ∧ 1#3 ++ f ≤ 0x0FF :=
      (between_iff (p := 1#3)).mpr ⟨f, rfl⟩
    simp only [factoryWord, hrange, decide_true, Bool.and_self, Bool.or_true, Bool.true_or]
  | writeData f =>
    have hrange : 0x200 ≤ (2#2 ++ f : InstrWord) ∧ 2#2 ++ f ≤ 0x2FF :=
      (between_iff (p := 2#2)).mpr ⟨f, rfl⟩
    simp only [factoryWord, hrange, decide_true, Bool.and_self, Bool.or_true]

/-- The words in the list of R85 are in the table. -/
theorem exists_encodesAs_of_factoryWord {w : InstrWord} (h : factoryWord w = true) : ∃ i, EncodesAs i w := by
  simp only [factoryWord, Bool.or_eq_true, Bool.and_eq_true, beq_iff_eq, decide_eq_true_eq, or_assoc] at h
  rcases h with rfl | rfl | h | h | rfl | rfl | rfl | rfl | rfl | rfl | rfl | rfl | rfl | rfl | h | h | h
  · exact ⟨_, .clearDisplay⟩
  · exact ⟨_, .returnHome⟩
  · obtain ⟨f, rfl⟩ := (between_iff (n := 2) (p := 1#8)).mp h
    exact ⟨_, .entryModeSet f⟩
  · obtain ⟨f, rfl⟩ := (between_iff (n := 3) (p := 1#7)).mp h
    exact ⟨_, .displayOnOff f⟩
  · exact ⟨_, .cursorOrDisplayShift 0⟩
  · exact ⟨_, .cursorOrDisplayShift 1⟩
  · exact ⟨_, .cursorOrDisplayShift 2⟩
  · exact ⟨_, .cursorOrDisplayShift 3⟩
  · exact ⟨_, .functionSet 0⟩
  · exact ⟨_, .functionSet 1⟩
  · exact ⟨_, .functionSet 2⟩
  · exact ⟨_, .functionSet 4⟩
  · exact ⟨_, .functionSet 5⟩
  · exact ⟨_, .functionSet 6⟩
  · obtain ⟨f, rfl⟩ := (between_iff (n := 6) (p := 1#4)).mp h
    exact ⟨_, .setCgramAddress f⟩
  · obtain ⟨f, rfl⟩ := (between_iff (n := 7) (p := 1#3)).mp h
    exact ⟨_, .setDdramAddress f⟩
  · obtain ⟨f, rfl⟩ := (between_iff (n := 8) (p := 2#2)).mp h
    exact ⟨_, .writeData f⟩

/-- A call whose word is listed is well formed: the words of R86 are not in the list of R85. -/
theorem wellFormed_of_factoryWord {i : Instr} {w : InstrWord} (htable : EncodesAs i w)
    (h : factoryWord w = true) : i.wellFormed = true := by
  obtain hwf | rfl | rfl := htable.wellFormed_or
  · exact hwf
  · exact absurd h (by decide)
  · exact absurd h (by decide)

/-! ### The decoder on bytes -/

theorem decode_cons_cons {lo hi : Byte} (h : hi &&& 0xFC = 0x00) (rest : List Byte) :
    decode (lo :: hi :: rest) = (decodeWord (hi.setWidth 2 ++ lo)).map (·, rest) := by
  simp only [decode, h, beq_self_eq_true, if_true]
  cases decodeWord (hi.setWidth 2 ++ lo) <;> rfl

/-- The bytes of a word decode as the word does. -/
theorem decode_bytesOfWord (w : InstrWord) (rest : List Byte) :
    decode (bytesOfWord w ++ rest) = (decodeWord w).map (·, rest) := by
  obtain ⟨hi, lo, rfl⟩ := exists_append (m := 2) (n := 8) w
  have hpadding : hi.setWidth 8 &&& 0xFC = 0x00 := by revert hi; decide
  have hback : (hi.setWidth 8).setWidth 2 = hi := by
    rw [BitVec.setWidth_setWidth_of_le _ (by decide), BitVec.setWidth_eq]
  have hbytes : bytesOfWord (hi ++ lo) = [lo, hi.setWidth 8] := by
    rw [bytesOfWord, BitVec.setWidth_append_eq_right, BitVec.extractLsb'_append_eq_left]
  rw [hbytes, List.cons_append, List.singleton_append, decode_cons_cons hpadding, hback]

/-- Settles O1: the word of a well-formed call is in the table, and the table is what the decoder knows. -/
theorem encodedCallDecodesBack : Obligations.EncodedCallDecodesBack := by
  unfold Obligations.EncodedCallDecodesBack
  intro i rest hwf
  rw [encodeBytes, decode_bytesOfWord, (encodesAs_encode hwf).decodeWord_eq]
  rfl

/-- Settles O2: what decodes is in the table, and the table is what the encoder answers. -/
theorem decodedWordEncodesBack : Obligations.DecodedWordEncodesBack := by
  unfold Obligations.DecodedWordEncodesBack
  exact fun w i h => (encodesAs_of_decodeWord h).encode_eq

/-- Settles O3: a call of the table is well formed exactly when its word is listed. The count is an
evaluation of the list. -/
theorem factoryProducesTheListedWords : Obligations.FactoryProducesTheListedWords := by
  unfold Obligations.FactoryProducesTheListedWords
  refine ⟨fun w => ⟨?produced, ?listed⟩, by decide +kernel⟩
  case produced =>
    rintro ⟨i, hwf, rfl⟩
    exact (encodesAs_encode hwf).factoryWord_eq hwf
  case listed =>
    intro hw
    obtain ⟨i, htable⟩ := exists_encodesAs_of_factoryWord hw
    exact ⟨i, wellFormed_of_factoryWord htable hw, htable.encode_eq⟩

/-! ### Words the port refuses -/

/-- A read is rejected as one, and a write only because no row covers it. -/
theorem decodeWord_error {w : InstrWord} {e : DecodeReject} (h : decodeWord w = .error e) :
    e = if w.getLsbD 8 then .readWord else .unassigned := by
  unfold decodeWord at h
  split at h
  next hread => cases h; rw [if_pos hread]
  next hwrite =>
    rw [if_neg hwrite]
    split at h
    · cases h
    · cases h; rfl

theorem decodeWord_of_bit8 {w : InstrWord} (h : w.getLsbD 8 = true) : decodeWord w = .error .readWord := by
  rw [decodeWord, if_pos h]

theorem execWord_of_reject {lo hi : Byte} {e : DecodeReject} (h : decode [lo, hi] = .error e) (s : State) :
    execWord lo hi s = .refused (if e = .readWord then .readPathUnsupported else .noSuchInstruction) := by
  cases e <;> simp [execWord, h]

/-- Settles O4: bit 0 of the second byte is bit 8 of the word, which the decoder looks at first. -/
theorem readWordsAreRefused : Obligations.ReadWordsAreRefused := by
  unfold Obligations.ReadWordsAreRefused
  refine ⟨fun w => decodeWord_of_bit8, fun s lo hi rest hidle hc hpadding hread => ?_⟩
  have hbit8 : (hi.setWidth 2 ++ lo).getLsbD 8 = true := by
    rw [BitVec.getLsbD_append (x := hi.setWidth 2) (y := lo)]
    simp [hread]
  have hreject : decode [lo, hi] = .error .readWord := by
    rw [decode_cons_cons hpadding, decodeWord_of_bit8 hbit8]
    rfl
  rw [step_eq_serve hc (accepts_of_idle _ hidle)]
  exact execWord_of_reject hreject _

/-- Settles O5: a write word the table does not have is unassigned, and of those it has only the two of R86 are
unlisted. -/
theorem unproducedWordsAreRefused : Obligations.UnproducedWordsAreRefused := by
  unfold Obligations.UnproducedWordsAreRefused
  intro s w rest hidle hc hwrite hunlisted
  have hserve : step s = execWord (w.setWidth 8) ((w.extractLsb' 8 2).setWidth 8) { s with commands := rest } :=
    step_eq_serve hc (accepts_of_idle _ hidle)
  have hdecode : decode [w.setWidth 8, (w.extractLsb' 8 2).setWidth 8] = (decodeWord w).map (·, []) :=
    decode_bytesOfWord w []
  rw [hserve]
  refine ⟨?unassigned, ?fourBit, ?eightBit⟩
  case unassigned =>
    rintro ⟨hne, hne'⟩
    cases hd : decodeWord w with
    | ok i =>
      have htable := encodesAs_of_decodeWord hd
      obtain hwf | rfl | rfl := htable.wellFormed_or
      · rw [htable.factoryWord_eq hwf] at hunlisted
        cases hunlisted
      · exact absurd rfl hne
      · exact absurd rfl hne'
    | error e =>
      have he : e = .unassigned := by rw [decodeWord_error hd, hwrite]; rfl
      rw [hd, he] at hdecode
      exact execWord_of_reject hdecode _
  case fourBit => rintro rfl; exact execWord_of_decode hdecode _
  case eightBit => rintro rfl; exact execWord_of_decode hdecode _

/-! ### The records of the factory and their words -/

/-- Settles O10, call by call. -/
theorem completionDelayFollowsTheOpcode : Obligations.CompletionDelayFollowsTheOpcode := by
  unfold Obligations.CompletionDelayFollowsTheOpcode
  intro T i r h
  rw [completionDelay_of_build h]
  cases i <;> rfl

/-- Settles O11: the constructor puts into the record what the encoder puts into the word. -/
theorem recordWordIsTheEncoding : Obligations.RecordWordIsTheEncoding := by
  unfold Obligations.RecordWordIsTheEncoding
  intro T i r h
  cases i with
  | clearDisplay | returnHome | entryModeSet _ _ | displayOnOff _ _ _ | cursorOrDisplayShift _ _ =>
    cases h; rfl
  | writeData x => obtain ⟨-, rfl⟩ := buildWriteData_eq_ok_iff.mp h; rfl
  | setCgramAddress x => obtain ⟨-, rfl⟩ := buildSetCgramAddress_eq_ok_iff.mp h; rfl
  | setDdramAddress x => obtain ⟨-, rfl⟩ := buildSetDdramAddress_eq_ok_iff.mp h; rfl
  | functionSet w n f => obtain ⟨-, rfl⟩ := buildFunctionSet_eq_ok_iff.mp h; rfl

/-! ### The nibble bytes -/

/-- The low half of both nibble bytes (R77, R78): RW and RS in bits 1 and 0. -/
def controlNibble (r : InstrRecord) : Nibble :=
  0#2 ++ BitVec.ofBool r.readWrite ++ BitVec.ofBool r.registerSelect

theorem controlBits_eq (r : InstrRecord) : controlBits r = 0#4 ++ controlNibble r := by
  unfold controlBits controlNibble
  cases r.registerSelect <;> cases r.readWrite <;> rfl

theorem hiByte_eq_append (r : InstrRecord) :
    hiByte r = (instrByte r).extractLsb' 4 4 ++ controlNibble r := by
  rw [hiByte_eq, controlBits_eq, BitVec.or_append, BitVec.zero_or, BitVec.or_zero]

theorem loByte_eq_append (r : InstrRecord) :
    loByte r = (instrByte r).extractLsb' 0 4 ++ controlNibble r := by
  rw [loByte_eq, controlBits_eq, BitVec.or_append, BitVec.zero_or, BitVec.or_zero]

/-- The high bits of a nibble byte are those of its nibble. -/
theorem getLsbD_append_add (n c : Nibble) (j : Nat) : (n ++ c : Byte).getLsbD (4 + j) = n.getLsbD j := by
  rw [BitVec.getLsbD_append (x := n) (y := c)]
  simp

theorem getLsbD_controlNibble (r : InstrRecord) :
    (controlNibble r).getLsbD 0 = r.registerSelect ∧ (controlNibble r).getLsbD 1 = r.readWrite ∧
      (controlNibble r).getLsbD 2 = false ∧ (controlNibble r).getLsbD 3 = false := by
  unfold controlNibble
  cases r.registerSelect <;> cases r.readWrite <;> decide

/-- The low bits of a nibble byte are the control bits, with enable and backlight off (R75). -/
theorem getLsbD_append_controlNibble (n : Nibble) (r : InstrRecord) :
    (n ++ controlNibble r : Byte).getLsbD 0 = r.registerSelect ∧
      (n ++ controlNibble r : Byte).getLsbD 1 = r.readWrite ∧
      (n ++ controlNibble r : Byte).getLsbD 2 = false ∧ (n ++ controlNibble r : Byte).getLsbD 3 = false := by
  simp only [BitVec.getLsbD_append (x := n) (y := controlNibble r)]
  exact getLsbD_controlNibble r

/-- Settles O12: each nibble byte is its nibble of the instruction byte over RW and RS. -/
theorem nibbleBytesBitForBit : Obligations.NibbleBytesBitForBit := by
  unfold Obligations.NibbleBytesBitForBit
  intro r
  obtain ⟨hhi0, hhi1, hhi2, hhi3⟩ := getLsbD_append_controlNibble ((instrByte r).extractLsb' 4 4) r
  obtain ⟨hlo0, hlo1, hlo2, hlo3⟩ := getLsbD_append_controlNibble ((instrByte r).extractLsb' 0 4) r
  rw [hiByte_eq_append, loByte_eq_append]
  refine ⟨fun j hj => ?_, fun j hj => ?_, hhi0, hlo0, hhi1, hlo1, hhi2, hlo2, hhi3, hlo3⟩
  · simp [getLsbD_append_add, hj, instrByte]
  · simp [getLsbD_append_add, hj, instrByte]

theorem controlNibble_and (r : InstrRecord) :
    controlNibble r &&& 3#4 = controlNibble r ∧ controlNibble r &&& 12#4 = 0#4 := by
  unfold controlNibble
  cases r.registerSelect <;> cases r.readWrite <;> decide

/-- Of a nibble byte's low half the mask of RW and RS keeps everything, that of enable and backlight nothing. -/
theorem append_controlNibble_and (n : Nibble) (r : InstrRecord) :
    (n ++ controlNibble r : Byte) &&& 0x03 = controlBits r ∧
      (n ++ controlNibble r : Byte) &&& 0x0C = 0x00 := by
  have hcontrolMask : (0x03 : Byte) = 0#4 ++ 3#4 := rfl
  have hotherMask : (0x0C : Byte) = 0#4 ++ 12#4 := rfl
  obtain ⟨hkept, hcleared⟩ := controlNibble_and r
  rw [controlBits_eq, hcontrolMask, hotherMask, BitVec.and_append, BitVec.and_append, BitVec.and_zero, hkept,
    hcleared]
  exact ⟨rfl, rfl⟩

theorem append_shiftRight (n c : Nibble) : (n ++ c : Byte) >>> 4 = 0#4 ++ n := by
  rw [BitVec.ushiftRight_eq_extractLsb'_of_lt (by decide)]
  exact congrArg (0#4 ++ ·) BitVec.extractLsb'_append_eq_left

theorem append_and_dataMask (n c : Nibble) : (n ++ c : Byte) &&& 0xF0 = n ++ 0#4 :=
  (and_dataMask (n ++ c)).trans (congrArg (· ++ 0#4) BitVec.extractLsb'_append_eq_left)

/-- Settles O13: the mask takes the high nibble, the shift the low one, and the two make the byte. -/
theorem nibbleSplitRoundTrip : Obligations.NibbleSplitRoundTrip := by
  unfold Obligations.NibbleSplitRoundTrip
  intro r
  obtain ⟨hhi, hhi'⟩ := append_controlNibble_and ((instrByte r).extractLsb' 4 4) r
  obtain ⟨hlo, hlo'⟩ := append_controlNibble_and ((instrByte r).extractLsb' 0 4) r
  rw [hiByte_eq_append, loByte_eq_append]
  refine ⟨?_, hhi, hlo, hhi', hlo'⟩
  rw [append_and_dataMask, append_shiftRight, BitVec.or_append, BitVec.or_zero, BitVec.zero_or,
    nibbles_append, instrByte]

/-! ### Words written out -/

/-- Settles O6, by evaluation of the decoder on the nine words. -/
theorem wordsOfTheSpecDecode : Obligations.WordsOfTheSpecDecode := by
  unfold Obligations.WordsOfTheSpecDecode
  decide

end Sys2Proof.Machine

/-! The statements of spec/40_instructions_command.md: which calls the factory accepts (R100, R107), how each
of the six command instructions completes (R102 to R107), and what an instruction leaves unchanged (R101,
R143). -/

namespace Sys2Proof.Machine

/-! ### What the factory accepts -/

theorem invalidPair_eq_true_iff {n : LineCount} {f : Font} :
    invalidPair n f = true ↔ n = .twoLines ∧ f = .font10x5 := by
  simp [invalidPair]

theorem buildFunctionSet_eq_error_iff {T : Durations} {w : BitWidth} {n : LineCount} {f : Font}
    {e : CmdError} :
    buildFunctionSet T w n f = .error e ↔ invalidPair n f = true ∧ e = .invalidConfiguration n f := by
  cases hv : invalidPair n f with
  | true => simp [buildFunctionSet, hv, eq_comm]
  | false => simp [buildFunctionSet_valid T hv]

/-- A constructor builds exactly when its call is well formed: three check a range, one a pair, the others
nothing. -/
theorem exists_build_eq_ok_iff {T : Durations} {i : Instr} :
    (∃ r, build T i = .ok r) ↔ i.wellFormed = true := by
  cases i with
  | clearDisplay | returnHome | entryModeSet _ _ | displayOnOff _ _ _ | cursorOrDisplayShift _ _ =>
    exact ⟨fun _ => rfl, fun _ => ⟨_, rfl⟩⟩
  | writeData x => simp [build, buildWriteData_eq_ok_iff, Instr.wellFormed]
  | setCgramAddress x => simp [build, buildSetCgramAddress_eq_ok_iff, Instr.wellFormed]
  | setDdramAddress x => simp [build, buildSetDdramAddress_eq_ok_iff, Instr.wellFormed]
  | functionSet w n f => simp [build, buildFunctionSet_eq_ok_iff, Instr.wellFormed]

/-- Settles O8: the check of `function_set` reads the line count and the font, not the bit width. -/
theorem factoryAcceptsTheWellFormedCalls : Obligations.FactoryAcceptsTheWellFormedCalls := by
  unfold Obligations.FactoryAcceptsTheWellFormedCalls
  intro T
  refine ⟨fun i => exists_build_eq_ok_iff, fun w n f e => ?_⟩
  rw [build, buildFunctionSet_eq_error_iff, invalidPair_eq_true_iff]
  constructor
  · rintro ⟨⟨rfl, rfl⟩, rfl⟩
    exact ⟨rfl, rfl, rfl⟩
  · rintro ⟨rfl, rfl, rfl⟩
    exact ⟨⟨rfl, rfl⟩, rfl⟩

/-! ### The completion of a command instruction -/

/-- The shift of R78 drops the high nibble, with or without the mask. -/
theorem and_lowMask_shiftLeft_eq_shiftLeft (b : Byte) : (b &&& 0x0F) <<< 4 = b <<< 4 := by
  rw [BitVec.shiftLeft_and_distrib]
  have hmask : (0x0F : Byte) <<< 4 = BitVec.allOnes 8 <<< 4 := by decide
  rw [hmask, ← BitVec.shiftLeft_and_distrib, BitVec.and_allOnes]

/-- A call whose record does not select the data register sends the high nibble of its instruction byte, then
the low one, with no control bit set (R77, R78). -/
theorem exec_command {i : Instr} {s : State} {opcode parameters hi lo : Byte} {delay : Nat}
    (hb : build s.durations i = .ok (mkRecord opcode parameters false delay)) (h : runsToEnd s)
    (hhi : (opcode ||| parameters) &&& dataMask = hi) (hlo : (opcode ||| parameters) <<< 4 = lo) :
    exec i s = .next (completedExec (writeRecord opcode parameters false delay) hi lo s) := by
  have hhiByte : hiByte (mkRecord opcode parameters false delay) = hi := by
    rw [hiByte_mkRecord, hhi]
    exact BitVec.zero_or
  have hloByte : loByte (mkRecord opcode parameters false delay) = lo := by
    rw [loByte_mkRecord, and_lowMask_shiftLeft_eq_shiftLeft, hlo]
    exact BitVec.zero_or
  rw [exec_runsToEnd hb h, hhiByte, hloByte]
  rfl

/-- Settles O20. -/
theorem clearDisplayCompletes : Obligations.ClearDisplayCompletes := by
  unfold Obligations.ClearDisplayCompletes
  exact fun s h => exec_command rfl h rfl rfl

/-- Settles O21. -/
theorem returnHomeCompletes : Obligations.ReturnHomeCompletes := by
  unfold Obligations.ReturnHomeCompletes
  exact fun s h => exec_command rfl h rfl rfl

/-- Settles O22: no flag reaches the high nibble. -/
theorem entryModeSetCompletes : Obligations.EntryModeSetCompletes := by
  unfold Obligations.EntryModeSetCompletes
  intro dir shift s h
  refine ⟨flagIncrement dir ||| flagShift shift, ?parameters, exec_command rfl h ?highNibble rfl⟩
  case parameters => cases dir <;> cases shift <;> rfl
  case highNibble => cases dir <;> cases shift <;> rfl

/-- Settles O23: no flag reaches the high nibble. -/
theorem displayOnOffCompletes : Obligations.DisplayOnOffCompletes := by
  unfold Obligations.DisplayOnOffCompletes
  intro display cursor blinking s h
  refine ⟨flagDisplay display ||| flagCursor cursor ||| flagBlinking blinking, ?parameters,
    exec_command rfl h ?highNibble rfl⟩
  case parameters => cases display <;> cases cursor <;> cases blinking <;> rfl
  case highNibble => cases display <;> cases cursor <;> cases blinking <;> rfl

/-- Settles O24: the opcode is the high nibble, the two flags are the low one. -/
theorem cursorOrDisplayShiftCompletes : Obligations.CursorOrDisplayShiftCompletes := by
  unfold Obligations.CursorOrDisplayShiftCompletes
  intro target direction s h
  refine ⟨flagTarget target ||| flagDirection direction, ?parameters,
    exec_command rfl h ?highNibble ?lowNibble⟩
  case parameters => cases target <;> cases direction <;> rfl
  case highNibble => cases target <;> cases direction <;> rfl
  case lowNibble => cases target <;> cases direction <;> rfl

/-- Settles O25: the opcode and the bit width are the high nibble, the line count and the font the low one. -/
theorem functionSetCompletes : Obligations.FunctionSetCompletes := by
  unfold Obligations.FunctionSetCompletes
  intro w n f s h hvalid
  have hpair : invalidPair n f = false := by rwa [← invalidPair_eq_true_iff, Bool.not_eq_true] at hvalid
  refine ⟨flagBitWidth w ||| flagLineCount n ||| flagFont f, ?parameters,
    exec_command (buildFunctionSet_valid _ hpair w) h ?highNibble ?lowNibble⟩
  case parameters => cases w <;> cases n <;> cases f <;> rfl
  case highNibble => cases w <;> cases n <;> cases f <;> rfl
  case lowNibble => cases w <;> cases n <;> cases f <;> rfl

/-! ### The frame of an instruction -/

/-- A run without a pause completes after all its events, or ends at a write that fails. -/
theorem runSlots_none_cases (slots : List Slot) (s : State) :
    runSlots slots none s = completeOp (throughSlots slots s) ∨
    ∃ xs slot ys b taken report, slots = xs ++ slot :: ys ∧
      runSlots slots none s = transportFailure b taken report (beginSlot slot (throughSlots xs s)) := by
  induction slots generalizing s with
  | nil => exact .inl rfl
  | cons slot rest ih =>
    have hrun : runSlots (slot :: rest) none s = match finishSlot slot (beginSlot slot s) with
        | .continues s' => runSlots rest none s'
        | .aborted s' => s' := rfl
    by_cases hacked : eventAcked slot.event (beginSlot slot s)
    · rw [hrun, finishSlot_through hacked]
      obtain hdone | ⟨xs, failing, ys, b, taken, report, rfl, hfail⟩ :=
        ih (eventThrough slot.event (beginSlot slot s))
      · exact .inl hdone
      · exact .inr ⟨slot :: xs, failing, ys, b, taken, report, rfl, hfail⟩
    · obtain ⟨d, he, -⟩ | ⟨b, he, hack, -⟩ | ⟨b, taken, report, -, -, hfail⟩ :=
        finishSlot_cases slot (beginSlot slot s)
      · exact absurd (by rw [he]; trivial) hacked
      · exact absurd (by rw [he]; exact hack) hacked
      · exact .inr ⟨[], slot, rest, b, taken, report, rfl, by rw [hrun, hfail]; rfl⟩

/-- From `s` to `t` the phase is as it was, or a transport failure has made it Faulted (R206). -/
def PhaseKept (s t : State) : Prop :=
  t.phase = s.phase ∨ t.phase = .faulted ∧ t.err = .transportFailure

/-- Only `init_lcd` changes the phase as it completes (R167). -/
theorem runSlots_none_phaseKept (slots : List Slot) {s : State} (hop : s.seq.op ≠ .init) :
    PhaseKept s (runSlots slots none s) := by
  obtain hdone | ⟨xs, slot, ys, b, taken, report, -, hfail⟩ := runSlots_none_cases slots s
  · exact .inl (by simp [hdone, hop])
  · exact .inr (by simp [hfail])

theorem runSlots_none_trace_prefix (slots : List Slot) (s : State) :
    (runSlots slots none s).trace <+: s.trace ++ slotEvents slots := by
  obtain hdone | ⟨xs, slot, ys, b, taken, report, rfl, hfail⟩ := runSlots_none_cases slots s
  · rw [hdone, completeOp_trace, throughSlots_trace]
  · rw [hfail, transportFailure_trace, beginSlot_trace, throughSlots_trace, slotEvents_append]
    exact (List.prefix_append_right_inj _).mpr (List.prefix_append _ _)

/-- With a pause or without one, a run of an instruction keeps the phase. -/
theorem runSlots_phaseKept (slots : List Slot) (p : Option Pause) {s : State} (hop : s.seq.op ≠ .init) :
    PhaseKept s (runSlots slots p s) := by
  cases p with
  | none => exact runSlots_none_phaseKept slots hop
  | some p =>
    obtain hsame | ⟨_, -, -, -, -, -, hphase, -⟩ := runSlots_paused slots p s
    · exact hsame ▸ runSlots_none_phaseKept slots hop
    · exact .inl hphase

/-- A paused run has done no more than the run without the pause, which it goes on to. -/
theorem runSlots_trace_prefix_slotEvents (slots : List Slot) (p : Option Pause) (s : State) :
    (runSlots slots p s).trace <+: s.trace ++ slotEvents slots := by
  have hunpaused := runSlots_none_trace_prefix slots s
  cases p with
  | none => exact hunpaused
  | some p =>
    obtain hsame | ⟨j, -, -, -, -, -, -, hrest⟩ := runSlots_paused slots p s
    · exact hsame ▸ hunpaused
    · refine List.IsPrefix.trans ?_ hunpaused
      rw [← hrest]
      exact runSlots_trace_prefix (slots.drop j) none (runSlots slots (some p) s)

/-- The trace of a run grows by a first part of its events (R62). -/
theorem runSlots_trace_eq_take (slots : List Slot) (p : Option Pause) (s : State) :
    ∃ n, (runSlots slots p s).trace = s.trace ++ (slotEvents slots).take n := by
  obtain ⟨new, hnew⟩ := runSlots_trace_prefix slots p s
  have hprefix := runSlots_trace_prefix_slotEvents slots p s
  rw [← hnew, List.prefix_append_right_inj] at hprefix
  exact ⟨new.length, by rw [← hnew, ← List.prefix_iff_eq_take.mp hprefix]⟩

/-! A running operation from where it stands, as `runOp_frame` has it for the registers. -/

theorem runOp_phaseKept (slots : List Slot) {s : State} (hop : s.seq.op ≠ .init) :
    PhaseKept s (runOp slots s) :=
  runSlots_phaseKept (slots.drop s.seq.k) s.pauses.head? (s := { s with pauses := s.pauses.tail }) hop

theorem runOp_trace_eq_take (slots : List Slot) (s : State) :
    ∃ n, (runOp slots s).trace = s.trace ++ (slotEvents (slots.drop s.seq.k)).take n :=
  runSlots_trace_eq_take (slots.drop s.seq.k) s.pauses.head? { s with pauses := s.pauses.tail }

/-- A run writes to no port but the bound one (R25). -/
theorem runOp_read_other (slots : List Slot) (s : State) :
    ∀ q, q ≠ s.transport → Memory.read (runOp slots s).pins q = Memory.read s.pins q := by
  obtain ⟨-, -, -, -, -, hpins⟩ :=
    runSlots_frame (slots.drop s.seq.k) s.pauses.head? { s with pauses := s.pauses.tail }
  exact hpins

/-- Settles O33: an error found at once changes only `err` and the responses, and a run of the record's events
latches nothing, flips nothing and writes to the bound port alone. -/
theorem instructionFrame : Obligations.InstructionFrame := by
  unfold Obligations.InstructionFrame
  intro i s t h
  obtain ⟨e, rfl⟩ | ⟨-, r, hr, rfl⟩ := exec_effect h
  · exact ⟨rfl, rfl, rfl, rfl, rfl, .inl rfl, fun _ _ => rfl, .inl ⟨rfl, rfl, rfl, rfl, rfl, rfl⟩⟩
  · obtain ⟨hir, hmode⟩ := runOp_exec (s := acceptedExec r s) (slots := recordSlots r s) rfl rfl
    obtain ⟨hcfg, htransport, hdur, hcmds⟩ := runOp_frame (recordSlots r s) (acceptedExec r s)
    have hphase : PhaseKept s (runOp (recordSlots r s) (acceptedExec r s)) :=
      runOp_phaseKept (recordSlots r s) (s := acceptedExec r s) (by simp)
    have hpins := runOp_read_other (recordSlots r s) (acceptedExec r s)
    obtain ⟨n, htrace⟩ := runOp_trace_eq_take (recordSlots r s) (acceptedExec r s)
    rw [acceptedExec_seq, List.drop_zero, slotEvents_recordSlots] at htrace
    exact ⟨hmode, hcfg, htransport, hdur, hcmds, hphase, hpins, .inr ⟨r, n, hr, hir, htrace⟩⟩

end Sys2Proof.Machine

/-! The statements of spec/41_instructions_address_data.md: the range check of the numeric operands (R120 to
R123) and how the two addresses (R121, R122) and `write_data` (R123) complete. -/

namespace Sys2Proof.Machine

/-! ### The range check -/

/-- Settles O7: each of the three constructors checks its operand against its own maximum and keeps its byte. -/
theorem numericOperandsAreRangeChecked : Obligations.NumericOperandsAreRangeChecked := by
  unfold Obligations.NumericOperandsAreRangeChecked
  intro T
  refine ⟨fun x h => buildSetCgramAddress_outside T h, fun x h0 h1 => ?cgram,
    fun x h => buildSetDdramAddress_outside T h, fun x h0 h1 => ?ddram,
    fun x h => buildWriteData_outside T h, fun x h0 h1 => ?data⟩
  case cgram => exact ⟨_, buildSetCgramAddress_inside T h0 h1, toNat_ofInt_byte h0 (by omega)⟩
  case ddram => exact ⟨_, buildSetDdramAddress_inside T h0 h1, toNat_ofInt_byte h0 (by omega)⟩
  case data => exact ⟨_, buildWriteData_inside T h0 h1, toNat_ofInt_byte h0 h1⟩

/-! ### The completion of an address instruction -/

/-- An operand of `n` bits has no bit above them. -/
theorem ofInt_and_lowMask {w : Nat} (n : Nat) {x : Int} (h0 : 0 ≤ x) (h1 : x < 2 ^ n) :
    BitVec.ofInt w x &&& BitVec.ofNat w (2 ^ n - 1) = BitVec.ofInt w x := by
  obtain ⟨v, rfl⟩ := Int.eq_ofNat_of_zero_le h0
  rw [BitVec.ofInt_natCast, ← BitVec.ofNat_and, Nat.and_two_pow_sub_one_of_lt_two_pow (by exact_mod_cast h1)]

/-- An address below the opcode's bit: the opcode and the address's bits from 4 up are sent first, the address's
low nibble second (R77, R78). -/
theorem exec_address {i : Instr} {s : State} {opcode a : Byte} (mask : Byte) {delay : Nat}
    (hb : build s.durations i = .ok (mkRecord opcode a false delay)) (h : runsToEnd s)
    (hhigh : opcode &&& dataMask = opcode) (hlow : opcode <<< 4 = 0) (ha : a &&& mask = a) :
    exec i s = .next (completedExec (writeRecord opcode a false delay)
      (opcode ||| (a &&& (mask &&& dataMask))) ((a &&& 0x0F) <<< 4) s) := by
  have hhi : (opcode ||| a) &&& dataMask = opcode ||| (a &&& (mask &&& dataMask)) := by
    rw [BitVec.and_or_distrib_right, hhigh, ← BitVec.and_assoc, ha]
  have hlo : (opcode ||| a) <<< 4 = (a &&& 0x0F) <<< 4 := by
    rw [BitVec.shiftLeft_or_distrib, hlow, and_lowMask_shiftLeft_eq_shiftLeft]
    exact BitVec.zero_or
  exact exec_command hb h hhi hlo

/-- Settles O26: six bits of address stand below the opcode's bit, two of them in the high nibble. -/
theorem setCgramAddressCompletes : Obligations.SetCgramAddressCompletes := by
  unfold Obligations.SetCgramAddressCompletes
  intro addr s h h0 h1
  have hmask := ofInt_and_lowMask (w := 8) 6 h0 (by omega)
  exact ⟨BitVec.ofInt 8 addr, toNat_ofInt_byte h0 (by omega),
    exec_address 0x3F (buildSetCgramAddress_inside _ h0 h1) h rfl rfl hmask⟩

/-- Settles O27: seven bits of address stand below the opcode's bit, three of them in the high nibble. -/
theorem setDdramAddressCompletes : Obligations.SetDdramAddressCompletes := by
  unfold Obligations.SetDdramAddressCompletes
  intro addr s h h0 h1
  have hmask := ofInt_and_lowMask (w := 8) 7 h0 (by omega)
  exact ⟨BitVec.ofInt 8 addr, toNat_ofInt_byte h0 (by omega),
    exec_address 0x7F (buildSetDdramAddress_inside _ h0 h1) h rfl rfl hmask⟩

/-! ### The completion of `write_data` -/

/-- Settles O28: the opcode is 0x00, so the instruction byte is the operand, and RS is set beside each nibble. -/
theorem writeDataCompletes : Obligations.WriteDataCompletes := by
  unfold Obligations.WriteDataCompletes
  intro byte s h h0 h1
  refine ⟨BitVec.ofInt 8 byte, toNat_ofInt_byte h0 h1, ?_⟩
  have hbyte : opWriteData ||| BitVec.ofInt 8 byte = BitVec.ofInt 8 byte := BitVec.zero_or
  have hb : build s.durations (.writeData byte) = .ok _ := buildWriteData_inside s.durations h0 h1
  rw [exec_runsToEnd hb h, hiByte_mkRecord, loByte_mkRecord, hbyte]
  rfl

end Sys2Proof.Machine

/-! The statements of spec/42_execute_and_nibble_tx.md: the nibble protocol and the events of `execute` (R133 to
R144), the timing of the enable line (R139, R141, R241), and the path an instruction takes in each phase (R134,
R145). -/

namespace Sys2Proof.Machine

/-! ### The nibble protocol -/

/-- Setting the enable bit sets bit 2 and leaves the others. -/
theorem getLsbD_or_enable (w : Byte) (j : Nat) :
    (w ||| 0x04).getLsbD j = (w.getLsbD j || decide (2 = j)) := by
  have henable : (0x04 : Byte) = BitVec.twoPow 8 2 := rfl
  rw [henable, BitVec.getLsbD_or, BitVec.getLsbD_twoPow]
  rfl

/-- The backlight bit leaves the enable bit as it is. -/
theorem or_backlight_enableLow {b : Byte} (h : b.getLsbD 2 = false) (backlight : Bool) :
    (b ||| backlightBits backlight).getLsbD 2 = false := by
  rw [BitVec.getLsbD_or, h]
  cases backlight <;> rfl

/-- Settles O14: the nibble byte has enable clear, and so has the first write. -/
theorem nibbleTransmissionWrites : Obligations.NibbleTransmissionWrites := by
  unfold Obligations.NibbleTransmissionWrites
  intro T backlight b hlow
  refine ⟨b ||| backlightBits backlight, rfl, rfl, fun j _ => ?_⟩
  have hlow' := or_backlight_enableLow hlow backlight
  rw [getLsbD_or_enable]
  by_cases hj : 2 = j
  · subst hj; rw [hlow']; simp
  · simp [hj, Ne.symm hj]

/-! ### The events of `execute` -/

/-- Settles O15: the two paths are made of pulses, and each pulse takes one enable cycle. -/
theorem eventsOfExecute : Obligations.EventsOfExecute := by
  unfold Obligations.EventsOfExecute
  intro T backlight r
  exact ⟨executeEvents_eightBit T backlight r, executeEvents_fourBit T backlight r,
    waitTotal_executeEvents_eightBit T backlight r, waitTotal_executeEvents_fourBit T backlight r⟩

/-- The five events of a nibble transmission are its five states. -/
theorem getElem?_nibbleTx (T : Durations) (backlight : Bool) (b : Byte) (k : Nat) :
    (nibbleTx T backlight b)[k]? = (nibbleStateAt k).map (nibbleEvent T backlight b) := by
  match k with
  | 0 | 1 | 2 | 3 | 4 => rfl
  | _ + 5 => rfl

/-- A nibble transmission takes the first five positions of a list that begins with it. -/
theorem getElem?_nibbleTx_append (T : Durations) (backlight : Bool) (b : Byte) (es : List Event) (k : Nat) :
    (nibbleTx T backlight b ++ es)[k]? =
      if k < 5 then (nibbleStateAt k).map (nibbleEvent T backlight b) else es[k - 5]? := by
  rw [← getElem?_nibbleTx, List.getElem?_append]
  rfl

/-- The completion delay stands alone at the end of its list. -/
theorem getElem?_wait (d k : Nat) : [Event.wait d][k]? = if k = 0 then some (.wait d) else none := by
  cases k <;> rfl

theorem getElem?_executeEvents_eightBit (T : Durations) (backlight : Bool) (r : InstrRecord) (k : Nat) :
    (executeEvents T .eightBit backlight r)[k]? = (txStateAt .eightBit k).map (txEvent T backlight r) := by
  have hlist : executeEvents T .eightBit backlight r =
      nibbleTx T backlight (hiByte r) ++ [.wait r.completionDelay] := rfl
  rw [hlist, getElem?_nibbleTx_append, getElem?_wait]
  unfold txStateAt
  by_cases hhi : k < 5
  · simp only [if_pos hhi, Option.map_map]; rfl
  · by_cases hdelay : k = 5
    · subst hdelay; rfl
    · have hbeyond : k - 5 ≠ 0 := by omega
      simp only [if_neg hhi, if_neg hdelay, if_neg hbeyond, Option.map_none]

theorem getElem?_executeEvents_fourBit (T : Durations) (backlight : Bool) (r : InstrRecord) (k : Nat) :
    (executeEvents T .fourBit backlight r)[k]? = (txStateAt .fourBit k).map (txEvent T backlight r) := by
  have hlist : executeEvents T .fourBit backlight r =
      nibbleTx T backlight (hiByte r) ++ (nibbleTx T backlight (loByte r) ++ [.wait r.completionDelay]) := rfl
  rw [hlist, getElem?_nibbleTx_append, getElem?_nibbleTx_append, getElem?_wait]
  unfold txStateAt
  by_cases hhi : k < 5
  · simp only [if_pos hhi, Option.map_map]; rfl
  · by_cases hlo : k < 10
    · have hsecond : k - 5 < 5 := by omega
      simp only [if_neg hhi, if_pos hlo, if_pos hsecond, Option.map_map]; rfl
    · by_cases hdelay : k = 10
      · subst hdelay; rfl
      · have hsecond : ¬ (k - 5 < 5) := by omega
        have hbeyond : k - 5 - 5 ≠ 0 := by omega
        simp only [if_neg hhi, if_neg hlo, if_neg hdelay, if_neg hsecond, if_neg hbeyond, Option.map_none]

/-- Settles O16, mode by mode. -/
theorem transmitterStatesNameTheEvents : Obligations.TransmitterStatesNameTheEvents := by
  unfold Obligations.TransmitterStatesNameTheEvents
  intro T mode backlight r k
  cases mode with
  | eightBit => exact getElem?_executeEvents_eightBit T backlight r k
  | fourBit => exact getElem?_executeEvents_fourBit T backlight r k

/-! ### Trains of pulses -/

/-- Events that are whole pulses, each of a byte with enable low, with any waits between them. -/
inductive PulseTrain (T : Durations) : List Event → Prop where
  | nil : PulseTrain T []
  | wait (d : Nat) {rest : List Event} (train : PulseTrain T rest) : PulseTrain T (.wait d :: rest)
  | pulse {w : Byte} {rest : List Event} (low : w.getLsbD 2 = false) (train : PulseTrain T rest) :
      PulseTrain T (pulse T w ++ rest)

theorem PulseTrain.append {T : Durations} {xs ys : List Event} (hxs : PulseTrain T xs)
    (hys : PulseTrain T ys) : PulseTrain T (xs ++ ys) := by
  induction hxs with
  | nil => exact hys
  | wait d _ ih => exact .wait d ih
  | pulse low _ ih => rw [List.append_assoc]; exact .pulse low ih

/-- The writes of a pulse are issued as it begins, and `T_PWEH` later; what follows comes an enable cycle after
its beginning at the earliest. -/
theorem timeline_pulse_append (T : Durations) (w : Byte) (rest : List Event) (t0 : Nat) :
    timeline t0 (pulse T w ++ rest) =
      (t0, w) :: (t0, w ||| 0x04) :: (t0 + T.pweh, w) ::
        timeline (t0 + T.pweh + (T.enableCyc - T.pweh)) rest := rfl

theorem le_of_mem_timeline {t0 : Nat} {es : List Event} {x : Nat × Byte} (h : x ∈ timeline t0 es) :
    t0 ≤ x.1 := by
  induction es generalizing t0 with
  | nil => cases h
  | cons e es ih =>
    cases e with
    | write b =>
      obtain rfl | h := List.mem_cons.mp h
      · exact le_rfl
      · exact ih h
    | wait d => exact le_trans (Nat.le_add_right t0 d) (ih h)

theorem enableHigh_of_enableLow (w : Byte) : (w ||| 0x04).getLsbD 2 = true := by
  rw [getLsbD_or_enable, decide_eq_true rfl, Bool.or_true]

/-- A write with enable low asks nothing of the next one. -/
theorem highFor_cons_low {least t : Nat} {b : Byte} (h : b.getLsbD 2 = false) (rest : List (Nat × Byte)) :
    highFor least ((t, b) :: rest) = highFor least rest := by
  cases rest with
  | nil => rfl
  | cons x rest => rw [highFor, h, Bool.not_false, Bool.true_or, Bool.true_and]

theorem PulseTrain.enableHeld {T : Durations} {es : List Event} (h : PulseTrain T es) (t0 : Nat) :
    highFor T.pweh (timeline t0 es) = true := by
  induction h generalizing t0 with
  | nil => rfl
  | wait d _ ih => exact ih (t0 + d)
  | pulse low _ ih =>
    rw [timeline_pulse_append, highFor_cons_low low, highFor, highFor_cons_low low, ih]
    simp

theorem apart_cons {least t : Nat} {b : Byte} {rest : List (Nat × Byte)} (h : ∀ x ∈ rest, t + least ≤ x.1)
    (hrest : apart least rest = true) : apart least ((t, b) :: rest) = true := by
  cases rest with
  | nil => rfl
  | cons x rest => simpa [apart, hrest] using h x List.mem_cons_self

theorem PulseTrain.enableApart {T : Durations} {es : List Event} (h : PulseTrain T es) (t0 : Nat) :
    apart T.enableCyc ((timeline t0 es).filter (fun x => x.2.getLsbD 2)) = true := by
  induction h generalizing t0 with
  | nil => rfl
  | wait d _ ih => exact ih (t0 + d)
  | @pulse w rest low _ ih =>
    rw [timeline_pulse_append]
    simp only [List.filter_cons, low, enableHigh_of_enableLow, if_true, Bool.false_eq_true, if_false]
    refine apart_cons (fun x hx => ?_) (ih _)
    have hlater := le_of_mem_timeline (List.mem_of_mem_filter hx)
    omega

theorem PulseTrain.writesInThrees {T : Durations} {es : List Event} (h : PulseTrain T es) :
    inPulses (writes es) = true := by
  induction h with
  | nil => rfl
  | wait d _ ih => exact ih
  | @pulse w rest low _ ih =>
    rw [writes_append, writes_pulse]
    simp only [List.cons_append, List.nil_append, inPulses, low, enableBit, ih, Bool.not_false,
      beq_self_eq_true, Bool.and_self]

/-- A train of pulses keeps the timing of enable (R241), and its writes come in threes (R138). -/
theorem PulseTrain.keepsTiming {T : Durations} {es : List Event} (h : PulseTrain T es) :
    pulsesHeld T es = true ∧ risesApart T es = true ∧ inPulses (writes es) = true :=
  ⟨h.enableHeld 0, h.enableApart 0, h.writesInThrees⟩

/-! ### The timing of enable -/

theorem hiByte_enableLow (r : InstrRecord) : (hiByte r).getLsbD 2 = false := by
  obtain ⟨-, -, hlow, -⟩ := getLsbD_append_controlNibble ((instrByte r).extractLsb' 4 4) r
  rw [hiByte_eq_append, hlow]

theorem loByte_enableLow (r : InstrRecord) : (loByte r).getLsbD 2 = false := by
  obtain ⟨-, -, hlow, -⟩ := getLsbD_append_controlNibble ((instrByte r).extractLsb' 0 4) r
  rw [loByte_eq_append, hlow]

theorem executeEvents_pulseTrain (T : Durations) (mode : BitWidth) (backlight : Bool) (r : InstrRecord) :
    PulseTrain T (executeEvents T mode backlight r) := by
  have hhi := or_backlight_enableLow (hiByte_enableLow r) backlight
  have hlo := or_backlight_enableLow (loByte_enableLow r) backlight
  have hdelay : PulseTrain T [.wait r.completionDelay] := .wait _ .nil
  cases mode with
  | eightBit => rw [executeEvents_eightBit]; exact .pulse hhi hdelay
  | fourBit => rw [executeEvents_fourBit, List.append_assoc]; exact .pulse hhi (.pulse hlo hdelay)

/-- Settles O19: instructions one after the other are one train of pulses. -/
theorem enablePulsesKeepTheirTiming : Obligations.EnablePulsesKeepTheirTiming := by
  unfold Obligations.EnablePulsesKeepTheirTiming
  intro T backlight program
  apply PulseTrain.keepsTiming
  induction program with
  | nil => exact .nil
  | cons x program ih => exact (executeEvents_pulseTrain T x.1 backlight x.2).append ih

/-- Whatever script is expanded, its events are pulses and waits. -/
theorem expandScript_pulseTrain (T : Durations) (backlight : Bool) (ops : List InitOp) (mode : BitWidth)
    (flip : Bool) : PulseTrain T (slotEvents (expandScript T backlight mode flip ops)) := by
  induction ops generalizing mode flip with
  | nil => exact .nil
  | cons op ops ih =>
    cases op with
    | wait d => exact .wait d (ih mode false)
    | flip => exact ih .fourBit true
    | execute built =>
      cases built with
      | error e => exact ih mode false
      | ok r =>
        have hevents : slotEvents (initExecute T mode backlight flip r) = executeEvents T mode backlight r :=
          map_event_initExecute T mode backlight flip r
        rw [expandScript, slotEvents_append, hevents]
        exact (executeEvents_pulseTrain T mode backlight r).append (ih mode false)

/-- Settles O38: the handshake is an expanded script, and its configuration makes no difference. -/
theorem initPulsesKeepTheirTiming : Obligations.InitPulsesKeepTheirTiming := by
  unfold Obligations.InitPulsesKeepTheirTiming
  intro T cfg _
  exact (expandScript_pulseTrain T cfg.backlight (initScript T cfg) .eightBit false).keepsTiming

/-! ### The path of an instruction -/

@[simp] theorem completedExec_phase (r : InstrRecord) (hi lo : Byte) (s : State) :
    (completedExec r hi lo s).phase = s.phase := by
  unfold completedExec
  cases s.bitMode <;> rfl

/-- In EightBit the high nibble is written alone (R134). -/
theorem writes_completedExec_eightBit {s : State} (h : s.bitMode = .eightBit) (r : InstrRecord)
    (hi lo : Byte) :
    writes (completedExec r hi lo s).trace =
      writes s.trace ++ [hi ||| lit s, hi ||| lit s ||| 0x04, hi ||| lit s] := by
  simp [completedExec, h, completed]

/-- In FourBit both nibbles are written (R134). -/
theorem writes_completedExec_fourBit {s : State} (h : s.bitMode = .fourBit) (r : InstrRecord)
    (hi lo : Byte) :
    writes (completedExec r hi lo s).trace =
      writes s.trace ++ [hi ||| lit s, hi ||| lit s ||| 0x04, hi ||| lit s,
        lo ||| lit s, lo ||| lit s ||| 0x04, lo ||| lit s] := by
  simp [completedExec, h, completed]

theorem writesPerInstr_eightBit {s : State} (h : s.bitMode = .eightBit) : writesPerInstr s = 3 := by
  rw [writesPerInstr, h]

theorem writesPerInstr_fourBit {s : State} (h : s.bitMode = .fourBit) : writesPerInstr s = 6 := by
  rw [writesPerInstr, h]

/-- Settles O29: by the invariant the phase gives the mode, and the mode the path. -/
theorem pathFollowsThePhase : Obligations.PathFollowsThePhase := by
  unfold Obligations.PathFollowsThePhase
  intro i r s h hb hunpaused
  obtain ⟨huninit, hready, -, -⟩ := h.mode
  refine ⟨fun hphase hacked => ?ready, fun hphase hacked => ?uninitialized⟩
  case ready =>
    have hmode := hready hphase
    have hruns : runsToEnd s := ⟨by simp [hphase], hunpaused, by rwa [writesPerInstr_fourBit hmode]⟩
    exact ⟨_, exec_runsToEnd hb hruns, by rw [completedExec_phase, hphase],
      writes_completedExec_fourBit hmode r _ _⟩
  case uninitialized =>
    have hmode := huninit hphase
    have hruns : runsToEnd s := ⟨by simp [hphase], hunpaused, by rwa [writesPerInstr_eightBit hmode]⟩
    exact ⟨_, exec_runsToEnd hb hruns, by rw [completedExec_phase, hphase],
      writes_completedExec_eightBit hmode r _ _⟩

/-! ### Enable once an instruction has completed -/

/-- A run without a pause that responds with success has done all its events. -/
theorem runSlots_none_of_done {slots : List Slot} {s : State}
    (h : (runSlots slots none s).responses = s.responses ++ [.done]) :
    runSlots slots none s = completeOp (throughSlots slots s) := by
  obtain hdone | ⟨xs, slot, ys, b, taken, report, -, hfail⟩ := runSlots_none_cases slots s
  · exact hdone
  · simp [hfail] at h

/-- With a pause or without one: a run that stands at an event has not responded yet. -/
theorem runSlots_of_done {slots : List Slot} {p : Option Pause} {s : State}
    (h : (runSlots slots p s).responses = s.responses ++ [.done]) :
    runSlots slots p s = completeOp (throughSlots slots s) := by
  cases p with
  | none => exact runSlots_none_of_done h
  | some p =>
    obtain hsame | ⟨_, -, -, -, hresp, -, -, -⟩ := runSlots_paused slots p s
    · rw [hsame] at h ⊢
      exact runSlots_none_of_done h
    · simp [hresp] at h

/-- Once its events are done the pins hold the last byte of the record. -/
theorem pinLevels_throughSlots_recordSlots (r : InstrRecord) (s u : State) :
    pinLevels (throughSlots (recordSlots r s) u) = lastByte s.bitMode s.cfg.backlight r := by
  have hlast : (writes (executeEvents s.durations s.bitMode s.cfg.backlight r)).getLast? =
      some (lastByte s.bitMode s.cfg.backlight r) := by
    cases s.bitMode <;> rfl
  rw [pinLevels, throughSlots_pins, slotEvents_recordSlots, hlast, throughSlots_transport]
  simp [Memory.read_write_same]

theorem lastByte_enableLow (mode : BitWidth) (backlight : Bool) (r : InstrRecord) :
    (lastByte mode backlight r).getLsbD 2 = false := by
  cases mode with
  | eightBit => exact or_backlight_enableLow (hiByte_enableLow r) backlight
  | fourBit => exact or_backlight_enableLow (loByte_enableLow r) backlight

/-- Settles O35: an instruction that responds with success has done all its events, whose last write has enable
low. -/
theorem enableIsLowAfterCompletion : Obligations.EnableIsLowAfterCompletion := by
  unfold Obligations.EnableIsLowAfterCompletion
  intro i s t _ hexec hdone
  obtain ⟨e, rfl⟩ | ⟨-, r, -, rfl⟩ := exec_effect hexec
  · simp at hdone
  · have hrun : runOp (recordSlots r s) (acceptedExec r s) =
        completeOp (throughSlots (recordSlots r s) { acceptedExec r s with pauses := s.pauses.tail }) :=
      runSlots_of_done hdone
    have hpins : pinLevels (runOp (recordSlots r s) (acceptedExec r s)) =
        lastByte s.bitMode s.cfg.backlight r := by
      rw [hrun]
      exact pinLevels_throughSlots_recordSlots r s _
    rw [hpins, lastByte_enableLow]

end Sys2Proof.Machine

/-! The statements of spec/43_init_sequence.md: the events of `init_lcd` (R168 to R170), and how `INIT` ends
when every write is acknowledged (R167) and when one fails (R171). -/

namespace Sys2Proof.Machine

/-! ### The events of `init_lcd` -/

theorem writeCount_initEvents (T : Durations) {cfg : Cfg} (h : invalidPair cfg.lines cfg.font = false) :
    writeCount (initEvents T cfg) = 36 := by
  rw [initEvents_eq_handshake T h, writeCount_handshake]

/-- Settles O36: the script expands to the table of R168, and its waits sum to R170's total. -/
theorem eventsOfInit : Obligations.EventsOfInit := by
  unfold Obligations.EventsOfInit
  intro T cfg h
  have hlength : (initEvents T cfg).length = 71 := by rw [initEvents, List.length_map, initSlots_length h]
  exact ⟨initEvents_eq_handshake T h, hlength, writeCount_initEvents T h, waitTotal_initEvents T h⟩

/-- Every byte of `init_lcd` has RW clear and the backlight bit as configured (R88, R169). -/
theorem initEvents_legal {T : Durations} {cfg : Cfg} (h : invalidPair cfg.lines cfg.font = false) :
    ∀ b ∈ writes (initEvents T cfg), LegalByte cfg.backlight b := by
  intro b hb
  obtain ⟨slot, hs, he⟩ := List.mem_map.mp (mem_writes.mp hb)
  exact (initSlots_lawful h slot hs).byte b he

/-- Settles O37: the slots of `init_lcd` write legal bytes, and the first of them is the nibble 0x30 with the
backlight bit. -/
theorem backlightDuringInit : Obligations.BacklightDuringInit := by
  unfold Obligations.BacklightDuringInit
  intro T cfg h
  refine ⟨writeCount_initEvents T h, fun b hb => ?bit, ?first⟩
  case bit =>
    obtain ⟨-, hlight⟩ := initEvents_legal h b hb
    exact hlight
  case first =>
    rw [initEvents_eq_handshake T h, writes_handshake]
    cases cfg.backlight <;> rfl

/-! ### The run of `init_lcd` -/

/-! The registers of the accepted state, but for those that the run sets whatever they hold. -/

@[simp] theorem acceptedInit_bitMode (s : State) : (acceptedInit s).bitMode = s.bitMode := rfl
@[simp] theorem acceptedInit_cfg (s : State) : (acceptedInit s).cfg = s.cfg := rfl
@[simp] theorem acceptedInit_transport (s : State) : (acceptedInit s).transport = s.transport := rfl
@[simp] theorem acceptedInit_seq (s : State) : (acceptedInit s).seq = { op := .init, k := 0 } := rfl
@[simp] theorem acceptedInit_err (s : State) : (acceptedInit s).err = s.err := rfl
@[simp] theorem acceptedInit_pins (s : State) : (acceptedInit s).pins = s.pins := rfl
@[simp] theorem acceptedInit_trace (s : State) : (acceptedInit s).trace = s.trace := rfl
@[simp] theorem acceptedInit_responses (s : State) : (acceptedInit s).responses = s.responses := rfl
@[simp] theorem acceptedInit_durations (s : State) : (acceptedInit s).durations = s.durations := rfl
@[simp] theorem acceptedInit_commands (s : State) : (acceptedInit s).commands = s.commands := rfl
@[simp] theorem acceptedInit_answers (s : State) : (acceptedInit s).answers = s.answers := rfl
@[simp] theorem acceptedInit_pauses (s : State) : (acceptedInit s).pauses = s.pauses := rfl

/-- The events that an accepted `INIT` runs are those of the table of R168. -/
theorem slotEvents_initSlots {s : State} (h : invalidPair s.cfg.lines s.cfg.font = false) :
    slotEvents (initSlots s.durations s.cfg) = handshake s.durations (lit s) (userLowNibble s.cfg) :=
  initEvents_eq_handshake s.durations h

/-- Without a pause `INIT` runs the handshake from the accepted state (R160). -/
theorem execInit_unpaused {s : State} (hphase : s.phase = .uninitialized)
    (hpair : invalidPair s.cfg.lines s.cfg.font = false) (hp : unpaused s) :
    execInit s = .next (runSlots (initSlots s.durations s.cfg) none (acceptedInit s)) := by
  have hpauses : (acceptedInit s).pauses = [] := hp
  have hinit : execInit s = .next (runOp (initSlots s.durations s.cfg) (acceptedInit s)) := by
    simp [execInit, hphase, hpair, acceptedInit]
  rw [hinit, runOp, hpauses, List.tail_nil, with_pauses_nil hpauses]
  rfl

/-! ### `INIT` whose writes are acknowledged -/

/-- The record that a step of the script transmits. -/
def InitOp.record? : InitOp → Option InstrRecord
  | .wait _ => none
  | .execute (.error _) => none
  | .execute (.ok r) => some r
  | .flip => none

/-- An `execute` of the script latches its record once (R26). -/
theorem filterMap_load_initExecute (T : Durations) (mode : BitWidth) (backlight flip : Bool)
    (r : InstrRecord) : (initExecute T mode backlight flip r).filterMap (·.load) = [r] := by
  cases mode <;> rfl

/-- An expanded script latches the records of the script, in order. -/
theorem filterMap_load_expandScript (T : Durations) (backlight : Bool) (ops : List InitOp)
    (mode : BitWidth) (flip : Bool) :
    (expandScript T backlight mode flip ops).filterMap (·.load) = ops.filterMap InitOp.record? := by
  induction ops generalizing mode flip with
  | nil => rfl
  | cons op ops ih =>
    cases op with
    | wait d => exact ih mode false
    | flip => exact ih .fourBit true
    | execute built =>
      cases built with
      | error e => exact ih mode false
      | ok r =>
        rw [expandScript, List.filterMap_append, filterMap_load_initExecute, ih]
        rfl

/-- The last record of `init_lcd` is that of the entry mode (R166). -/
theorem throughSlots_initSlots_ir (T : Durations) (cfg : Cfg) (u : State) :
    (throughSlots (initSlots T cfg) u).ir = writeRecord 0x04 0x02 false T.short := by
  have hlast : (initScript T cfg).getLast? = some (.execute (buildEntryModeSet T .increment .shiftOff)) := rfl
  obtain ⟨front, hscript⟩ := List.getLast?_eq_some_iff.mp hlast
  have hentry : [InitOp.execute (buildEntryModeSet T .increment .shiftOff)].filterMap InitOp.record? =
      [writeRecord 0x04 0x02 false T.short] := rfl
  rw [throughSlots_ir, initSlots, filterMap_load_expandScript, hscript, List.filterMap_append, hentry,
    List.getLast?_concat]
  rfl

/-- `init_lcd` leaves `bit_mode` FourBit, whatever it was (R165). -/
theorem throughSlots_initSlots_bitMode (T : Durations) {cfg : Cfg}
    (h : invalidPair cfg.lines cfg.font = false) (u : State) :
    (throughSlots (initSlots T cfg) u).bitMode = .fourBit := by
  have hflip := initSlots_any_flip (T := T) h 0 70
  rw [List.drop_zero, List.take_of_length_le (initSlots_length h).le] at hflip
  rw [throughSlots_bitMode, hflip]
  rfl

/-- After events of which the last is a wait the counter is at zero. -/
theorem throughSlots_timer_of_getLast? {slots : List Slot} {d : Nat}
    (h : (slotEvents slots).getLast? = some (.wait d)) (u : State) : (throughSlots slots u).timer = 0 := by
  rw [slotEvents, List.getLast?_map, Option.map_eq_some_iff] at h
  obtain ⟨slot, hslot, he⟩ := h
  obtain ⟨front, rfl⟩ := List.getLast?_eq_some_iff.mp hslot
  exact throughSlots_timer_wait front u d slot he

theorem getLast?_handshake (T : Durations) (bl lo : Byte) :
    (handshake T bl lo).getLast? = some (.wait T.short) := rfl

theorem getLast?_writes_handshake (T : Durations) (bl lo : Byte) :
    (writes (handshake T bl lo)).getLast? = some (0x60 ||| bl) := rfl

/-- Settles O39: every write acknowledged, the run goes through the whole handshake and completes. -/
theorem initCompletes : Obligations.InitCompletes := by
  unfold Obligations.InitCompletes
  intro s h
  obtain ⟨hphase, hpair, hp, hacked⟩ := h
  have hevents := slotEvents_initSlots hpair
  have hacked' : acked (writeCount (slotEvents (initSlots s.durations s.cfg))) (acceptedInit s) := by
    rw [hevents, writeCount_handshake]
    exact hacked
  have hir := throughSlots_initSlots_ir s.durations s.cfg (acceptedInit s)
  have hmode := throughSlots_initSlots_bitMode s.durations hpair (acceptedInit s)
  have htimer : (throughSlots (initSlots s.durations s.cfg) (acceptedInit s)).timer = 0 :=
    throughSlots_timer_of_getLast? (by rw [hevents, getLast?_handshake]) _
  have hpins : (throughSlots (initSlots s.durations s.cfg) (acceptedInit s)).pins =
      Memory.write s.pins s.transport (0x60 ||| lit s) := by
    rw [throughSlots_pins, hevents, getLast?_writes_handshake]
    rfl
  rw [execInit_unpaused hphase hpair hp, runSlots_acked hacked', Host.Outcome.next.injEq]
  ext1 <;> simp [completed, hir, hmode, htimer, hpins, hevents]

/-! ### `INIT` whose transport fails -/

/-- A run ends at its event `k` when that is a write that fails and the writes before it are acknowledged
(R206). -/
theorem runSlots_failedAt {slots : List Slot} {k : Nat} (hk : k < slots.length) {s : State} {b : Byte}
    {taken : Bool} {report : TransportReport} (he : slots[k].event = .write b)
    (hacked : acked (writeCount (slotEvents (slots.take k))) s)
    (hfail : s.answers[writeCount (slotEvents (slots.take k))]? = some (.fail taken report)) :
    runSlots slots none s =
      transportFailure b taken report (beginSlot slots[k] (throughSlots (slots.take k) s)) := by
  have hsplit : slots = slots.take k ++ slots[k] :: slots.drop (k + 1) := by
    rw [← List.drop_eq_getElem_cons hk, List.take_append_drop]
  have hanswer : nextAnswer (throughSlots (slots.take k) s) = .fail taken report := by
    rw [nextAnswer, throughSlots_answers, List.head?_drop, hfail]
    rfl
  rw [← runSlots_failed (slots.drop (k + 1)) hacked he hanswer, ← hsplit]

/-- A further byte hides those that the events before it have written. -/
theorem write_throughSlots_pins (slots : List Slot) (s : State) (b : Byte) :
    Memory.write (throughSlots slots s).pins s.transport b = Memory.write s.pins s.transport b := by
  rw [throughSlots_pins]
  cases (writes (slotEvents slots)).getLast? with
  | none => rfl
  | some c => exact Memory.write_write _ _ _ _

/-- Settles O41: the run ends at event `k`, which has begun, and the flip comes with event 27 alone. -/
theorem transportFailureEndsInit : Obligations.TransportFailureEndsInit := by
  unfold Obligations.TransportFailureEndsInit
  intro s k b before taken report hphase hmode hpair hp hb hbefore hacked hfail
  have hevents : slotEvents ((initSlots s.durations s.cfg).take k) = before := by
    rw [hbefore, ← slotEvents_initSlots hpair]
    exact List.map_take
  rw [← slotEvents_initSlots hpair, slotEvents, List.getElem?_map, Option.map_eq_some_iff] at hb
  obtain ⟨slot, hslot, he⟩ := hb
  obtain ⟨hk, rfl⟩ := List.getElem?_eq_some_iff.mp hslot
  rw [← hevents] at hacked hfail
  have hrun := execInit_unpaused hphase hpair hp
  rw [runSlots_failedAt hk (s := acceptedInit s) he hacked hfail] at hrun
  refine ⟨_, hrun, by simp, by simp, by simp, by simp, by simp, by simp, by simp, ?mode,
    by simp [hevents], ?response, ?pins⟩
  case mode =>
    have hstart : (acceptedInit s).bitMode = if 0 ≤ 26 then .eightBit else .fourBit := hmode
    have hflip := initSlots_modeAfter (T := s.durations) hpair 0 k
    rw [List.drop_zero, Nat.zero_add, ← hstart] at hflip
    rw [transportFailure_bitMode, bitMode_standing hk, hflip]
  case response => simp [List.length_take_of_le hk.le]
  case pins =>
    rw [transportFailure_pins, beginSlot_pins, beginSlot_transport, throughSlots_transport,
      write_throughSlots_pins, throughSlots_pins, hevents]
    rfl

end Sys2Proof.Machine

/-! The statements of spec/44_delay_sequencer.md: how many clocks a wait takes (R186), and the down-counter looked
at in the first wait of an instruction (R185). -/

namespace Sys2Proof.Machine

/-! ### The clocks of a wait -/

/-- The clocks of a wait are the least number, not below one, that covers it (R186). -/
theorem ticks_le_iff {d n : Nat} : ticks d ≤ n ↔ 1 ≤ n ∧ d * Config.clockHz ≤ n * 10 ^ 9 := by
  rw [ticks, max_le_iff, Nat.div_le_iff_le_mul_add_pred (by decide), Nat.add_le_add_iff_right, Nat.mul_comm n]

/-- Settles O57: were the clocks but one already enough, they would be no fewer than the clocks themselves. -/
theorem ticksCoverTheWait : Obligations.TicksCoverTheWait := by
  unfold Obligations.TicksCoverTheWait
  intro d
  obtain ⟨hpos, hcovers⟩ := ticks_le_iff.mp (le_refl (ticks d))
  refine ⟨hpos, hcovers, or_iff_not_imp_left.mpr fun hne => ?_⟩
  by_contra hnot
  have hle : ticks d ≤ ticks d - 1 := ticks_le_iff.mpr ⟨by omega, Nat.le_of_not_lt hnot⟩
  omega

/-! ### The counter while clocks pass -/

/-- A wait loads a counter that is at zero (R185). -/
theorem timerAtStart_wait_zero (d : Nat) : timerAtStart (.wait d) 0 = ticks d := by
  rw [timerAtStart, if_pos rfl]

/-- A wait that has clocks left counts down. -/
theorem passClocks_wait_of_lt {d clocks : Nat} (rest : List Slot) {s : State} (h : clocks < s.timer) :
    passClocks clocks (Slot.plain (.wait d)) rest s = { s with timer := s.timer - clocks } := by
  simp only [passClocks, Slot.plain, timerClocks_eq]
  exact if_neg (Nat.sub_ne_zero_of_lt h)

/-- A wait whose clocks have passed is done, and the next event begins. -/
theorem passClocks_wait_of_le {d clocks : Nat} (rest : List Slot) {s : State} (h : s.timer ≤ clocks) :
    passClocks clocks (Slot.plain (.wait d)) rest s = standAt rest (waitElapsed d s) := by
  simp only [passClocks, Slot.plain, timerClocks_eq]
  exact if_pos (Nat.sub_eq_zero_of_le h)

/-- An operation that starts with a pause in the event after `xs` has done `xs`, and the clocks of the pause
pass in that event. -/
theorem runOp_pauseIn {xs : List Slot} (slot : Slot) (ys : List Slot) {clocks : Nat} {u : State}
    (hstart : u.seq.k = 0) (hpause : u.pauses = [{ events := xs.length, clocks := clocks }])
    (h : acked (writeCount (slotEvents xs)) u) :
    runOp (xs ++ slot :: ys) u =
      passClocks clocks slot ys (beginSlot slot (throughSlots xs { u with pauses := [] })) := by
  have hrun := runSlots_pauseAt slot ys clocks (s := { u with pauses := [] }) h
  rw [← hrun, runOp, hstart, hpause]
  rfl

/-! ### The enable pulse that opens an instruction -/

/-- The byte an instruction writes first: its high nibble with the backlight bit (R77, R140). -/
def firstByte (r : InstrRecord) (s : State) : Byte := hiByte r ||| backlightBits s.cfg.backlight

/-- The two writes that raise enable (R135). -/
def raiseSlots (r : InstrRecord) (s : State) : List Slot :=
  [Slot.plain (.write (firstByte r s)), Slot.plain (.write (firstByte r s ||| 0x04))]

/-- In both modes an instruction raises enable, waits for `T_PWEH` and goes on with a write (R132, R133, R135). -/
theorem recordSlots_eq_raise_append (r : InstrRecord) (s : State) :
    ∃ ys, recordSlots r s = raiseSlots r s ++
      Slot.plain (.wait s.durations.pweh) :: Slot.plain (.write (firstByte r s)) :: ys := by
  unfold recordSlots
  cases s.bitMode with
  | eightBit => exact ⟨_, rfl⟩
  | fourBit => exact ⟨_, rfl⟩

/-- An instruction at the start of its first wait, enable just raised. -/
def enableRaised (r : InstrRecord) (s : State) : State :=
  beginSlot (Slot.plain (.wait s.durations.pweh))
    (throughSlots (raiseSlots r s) { acceptedExec r s with pauses := [] })

@[simp] theorem enableRaised_seq (r : InstrRecord) (s : State) :
    (enableRaised r s).seq = { op := .exec, k := 2 } := rfl

@[simp] theorem enableRaised_busy (r : InstrRecord) (s : State) : (enableRaised r s).busy = true := rfl

@[simp] theorem enableRaised_trace (r : InstrRecord) (s : State) :
    (enableRaised r s).trace = s.trace ++ slotEvents (raiseSlots r s) := throughSlots_trace _ _

theorem enableRaised_timer (r : InstrRecord) {s : State} (h : s.timer = 0) :
    (enableRaised r s).timer = ticks s.durations.pweh := by
  have hzero := throughSlots_timer_zero (raiseSlots r s) { acceptedExec r s with pauses := [] } h
  rw [enableRaised, beginSlot_timer, hzero]
  exact timerAtStart_wait_zero _

theorem pinLevels_enableRaised (r : InstrRecord) (s : State) :
    pinLevels (enableRaised r s) = firstByte r s ||| 0x04 := pinLevels_drivePins _ _

/-- Looked at in its first wait, an instruction has raised enable, and the clocks pass in that wait. -/
theorem exec_pausedInPulse {i : Instr} {r : InstrRecord} {s : State} {c : Nat}
    (hb : build s.durations i = .ok r) (hphase : s.phase ≠ .faulted)
    (hpause : s.pauses = [{ events := 2, clocks := c }]) (hacked : acked 2 s) :
    ∃ ys, exec i s = .next (passClocks c (Slot.plain (.wait s.durations.pweh))
      (Slot.plain (.write (firstByte r s)) :: ys) (enableRaised r s)) := by
  obtain ⟨ys, hslots⟩ := recordSlots_eq_raise_append r s
  refine ⟨ys, ?_⟩
  have hexec : exec i s = .next (runOp (recordSlots r s) (acceptedExec r s)) := by
    rw [exec_eq, hb, execBuilt, if_neg hphase]
    rfl
  rw [hexec, hslots, runOp_pauseIn (xs := raiseSlots r s) (u := acceptedExec r s) _ _ rfl hpause hacked]
  rfl

/-- Settles O58: the clocks pass in the first wait, which lasts while fewer than its own have passed. -/
theorem timerCountsTheWaitDown : Obligations.TimerCountsTheWaitDown := by
  unfold Obligations.TimerCountsTheWaitDown
  intro i r s c hb hphase htimer hpause hacked
  obtain ⟨ys, hexec⟩ := exec_pausedInPulse hb hphase hpause hacked
  have hload := enableRaised_timer r htimer
  have hhigh : (pinLevels (enableRaised r s)).getLsbD 2 = true := by
    rw [pinLevels_enableRaised, enableHigh_of_enableLow]
  refine ⟨_, hexec, ?_⟩
  by_cases hc : c < ticks s.durations.pweh
  · rw [passClocks_wait_of_lt _ (hload ▸ hc), hload]
    exact ⟨enableRaised_busy r s, hhigh, fun _ => ⟨enableRaised_seq r s, rfl⟩,
      fun hle => absurd hc (Nat.not_lt.mpr hle)⟩
  · have hle : ticks s.durations.pweh ≤ c := Nat.le_of_not_lt hc
    rw [passClocks_wait_of_le _ (hload ▸ hle)]
    refine ⟨enableRaised_busy r s, hhigh, fun hlt => absurd hlt hc, fun _ => ⟨?seq, rfl, ?trace⟩⟩
    case seq => simp [standAt]
    case trace =>
      obtain ⟨zs, hslots⟩ := recordSlots_eq_raise_append r s
      rw [← slotEvents_recordSlots, hslots]
      simp [standAt, raiseSlots, Slot.plain]

end Sys2Proof.Machine

/-! The statements of spec/60_exceptions.md: the errors found before a transmission (R201 to R203, R207), a write
that fails (R205, R206), and the block that was constructed for the 8-bit wire mode (R204). -/

namespace Sys2Proof.Machine

/-! ### Errors found before the transmission -/

/-- A Faulted block refuses every instruction before its constructor is called (R130, R207, R209). -/
theorem exec_of_faulted (i : Instr) {s : State} (h : s.phase = .faulted) :
    exec i s = .next (raise (.sequenceError .faulted) s) := by
  rw [exec_eq, execBuilt.eq_def, if_pos h, h]

/-- Past the gate a constructor's error ends the instruction (R130, R201). -/
theorem exec_of_build_error {i : Instr} {e : CmdError} {s : State} (hphase : s.phase ≠ .faulted)
    (he : build s.durations i = .error e) : exec i s = .next (raise e s) := by
  rw [exec_eq, he, execBuilt, if_neg hphase]

/-- `INIT` is refused in every phase but the one it starts from (R160, R207). -/
theorem execInit_of_ne_uninitialized {s : State} (h : s.phase ≠ .uninitialized) :
    execInit s = .next (raise (.sequenceError s.phase) s) := by
  rw [execInit, if_pos h]

/-- `INIT` finds an invalid pair as it is accepted (R160). -/
theorem execInit_of_invalidPair {s : State} (hphase : s.phase = .uninitialized)
    (hpair : invalidPair s.cfg.lines s.cfg.font = true) :
    execInit s = .next (raise (.invalidConfiguration s.cfg.lines s.cfg.font) s) := by
  rw [execInit, if_neg (not_not_intro hphase), if_pos hpair]

/-- Settles O30: each of the four ends in `raise`, which sets `err` and appends the response. -/
theorem preciseErrorsChangeNothingElse : Obligations.PreciseErrorsChangeNothingElse := by
  unfold Obligations.PreciseErrorsChangeNothingElse
  refine ⟨fun _ _ _ => exec_of_build_error, fun i _ => exec_of_faulted i,
    fun _ => execInit_of_ne_uninitialized, fun s hphase hlines hfont => ?invalidPair⟩
  case invalidPair =>
    rw [execInit_of_invalidPair hphase (invalidPair_eq_true_iff.mpr ⟨hlines, hfont⟩), hlines, hfont]
    rfl

/-- Settles O31: what the four constructors with a check answer, each past the gate. -/
theorem rejectedOperandsEndTheCommand : Obligations.RejectedOperandsEndTheCommand := by
  unfold Obligations.RejectedOperandsEndTheCommand
  intro s hphase
  exact ⟨fun w => exec_of_build_error (i := .functionSet w _ _) hphase (buildFunctionSet_invalid _ w),
    fun x hx => exec_of_build_error (i := .setCgramAddress x) hphase (buildSetCgramAddress_outside _ hx),
    fun x hx => exec_of_build_error (i := .setDdramAddress x) hphase (buildSetDdramAddress_outside _ hx),
    fun x hx => exec_of_build_error (i := .writeData x) hphase (buildWriteData_outside _ hx)⟩

/-! ### A write that fails -/

/-- Without a pause an instruction that builds runs its record's events from the accepted state (R130). -/
theorem exec_unpaused {i : Instr} {r : InstrRecord} {s : State} (hb : build s.durations i = .ok r)
    (hphase : s.phase ≠ .faulted) (hp : unpaused s) :
    exec i s = .next (runSlots (recordSlots r s) none (acceptedExec r s)) := by
  rw [exec_eq, hb, execBuilt, if_neg hphase, executeRecord_unpaused hp]

theorem recordSlots_take (r : InstrRecord) (s : State) (k : Nat) :
    (recordSlots r s).take k =
      ((executeEvents s.durations s.bitMode s.cfg.backlight r).take k).map Slot.plain :=
  List.map_take.symm

/-- Settles O32: the run ends at event `k`; the pins hold its byte or what the events before it left. -/
theorem transportFailureEndsTheInstruction : Obligations.TransportFailureEndsTheInstruction := by
  unfold Obligations.TransportFailureEndsTheInstruction
  intro i r s k b before taken report hb hphase hp hwrite hbefore hacked hfail
  obtain ⟨hlt, hevent⟩ := List.getElem?_eq_some_iff.mp hwrite
  have hk : k < (recordSlots r s).length := by rwa [recordSlots, List.length_map]
  have hslot : (recordSlots r s)[k] = Slot.plain (.write b) := by
    rw [← hevent]; exact List.getElem_map _
  have htake : (recordSlots r s).take k = before.map Slot.plain := by rw [recordSlots_take, hbefore]
  have hlength : before.length = k := by rw [hbefore, List.length_take_of_le hlt.le]
  have hevents : slotEvents ((recordSlots r s).take k) = before := by rw [htake, slotEvents_plain]
  rw [← hevents] at hacked hfail
  rw [exec_unpaused hb hphase hp,
    runSlots_failedAt hk (s := acceptedExec r s) (by rw [hslot]; rfl) hacked hfail, hslot, htake,
    Host.Outcome.next.injEq]
  ext1
  case pins =>
    rw [transportFailure_pins, beginSlot_pins, beginSlot_transport, throughSlots_transport,
      write_throughSlots_pins, throughSlots_pins, slotEvents_plain]
    rfl
  all_goals simp [Slot.plain, hlength]

/-! ### The block constructed for the 8-bit wire mode -/

/-- A construction is served whatever the block is doing (R43, R237). -/
theorem step_construct {s : State} {cfg : Cfg} {transport : Nat} {rest : List Command}
    (h : s.commands = .construct cfg transport :: rest) :
    step s = .next (construct cfg transport (abandon { s with commands := rest })) :=
  step_eq_serve h rfl

theorem construct_phase_of_eightBit {cfg : Cfg} (h : cfg.bitWidth = .eightBit) (transport : Nat)
    (s : State) : (construct cfg transport s).phase = .faulted := if_pos h

theorem construct_err_of_eightBit {cfg : Cfg} (h : cfg.bitWidth = .eightBit) (transport : Nat)
    (s : State) : (construct cfg transport s).err = .unsupportedMode := if_pos h

/-- A Faulted block refuses `INIT` (R207). -/
theorem execInit_of_faulted {s : State} (h : s.phase = .faulted) :
    execInit s = .next (raise (.sequenceError .faulted) s) := by
  rw [execInit_of_ne_uninitialized (by simp [h]), h]

/-- Settles O44: the construction leaves the block Faulted, and a Faulted block refuses every command. -/
theorem rejectedConstructionIsDead : Obligations.RejectedConstructionIsDead := by
  unfold Obligations.RejectedConstructionIsDead
  intro s cfg transport rest hwidth hc
  have hfaulted := construct_phase_of_eightBit hwidth transport (abandon { s with commands := rest })
  have herr := construct_err_of_eightBit hwidth transport (abandon { s with commands := rest })
  exact ⟨_, step_construct hc, hfaulted, herr, rfl, rfl, abandon_trace _, abandon_responses _,
    fun i => exec_of_faulted i hfaulted, execInit_of_faulted hfaulted⟩

end Sys2Proof.Machine

/-! The statements of spec/70_reset_and_hazards.md: a construction presented to an idle block (R230, R232) and to a
busy one (R237). -/

namespace Sys2Proof.Machine

/-! ### What a reset abandons -/

/-- An idle block is writing nothing (R51). -/
theorem pendingWrite_of_idle {s : State} (h : s.busy = false) : pendingWrite s = none := by
  simp [pendingWrite, h]

/-- A reset of an idle block has nothing to abandon (R237). -/
theorem abandon_of_idle {s : State} (h : s.busy = false) : abandon s = s := by
  rw [abandon, pendingWrite_of_idle h]

/-- What the host still presents does not touch the write in progress. -/
theorem pendingWrite_withCommands (s : State) (rest : List Command) :
    pendingWrite { s with commands := rest } = pendingWrite s := rfl

@[simp] theorem abandon_commands (s : State) : (abandon s).commands = s.commands := by
  obtain ⟨pins, answers, he, -⟩ := abandon_eq s; rw [he]

/-- The pins keep their bytes, or the bound transport takes that of the write in progress (R237). -/
theorem abandon_pins (s : State) :
    (abandon s).pins = s.pins ∨
      ∃ b, pendingWrite s = some b ∧ (abandon s).pins = Memory.write s.pins s.transport b := by
  obtain ⟨pins, answers, he, hpins⟩ := abandon_eq s; rw [he]; exact hpins

/-- A reset touches the pins of no transport but the one that was bound (R237). -/
theorem abandon_read_other (s : State) {q : Nat} (hq : q ≠ s.transport) :
    Memory.read (abandon s).pins q = Memory.read s.pins q := by
  obtain hp | ⟨b, -, hp⟩ := abandon_pins s
  · rw [hp]
  · rw [hp, Memory.read_write_other _ _ _ _ hq]

/-! ### A construction presented to the block -/

/-- Settles O43: with nothing to abandon, the step is the construction itself. -/
theorem constructSetsEveryRegister : Obligations.ConstructSetsEveryRegister := by
  unfold Obligations.ConstructSetsEveryRegister
  intro s cfg transport rest hidle hc
  have hkeep : abandon { s with commands := rest } = { s with commands := rest } := abandon_of_idle hidle
  rw [step_construct hc, hkeep]
  rfl

/-- Settles O45: the construction gives the registers their values; the pins are those the abandoned
operation leaves. -/
theorem resetAbandonsTheOperation : Obligations.ResetAbandonsTheOperation := by
  unfold Obligations.ResetAbandonsTheOperation
  intro s cfg transport rest _ hc
  have hpins := abandon_pins { s with commands := rest }
  rw [pendingWrite_withCommands] at hpins
  exact ⟨_, step_construct hc, abandon_trace _, abandon_responses _, abandon_commands _,
    rfl, rfl, rfl, rfl, rfl, rfl, rfl, rfl,
    fun _ hq => abandon_read_other { s with commands := rest } hq, hpins⟩

end Sys2Proof.Machine
